-- ==== Sys2Proof/Word.lean ====
section
/-! DEFINITION. The bit vectors that cross this block's ports (spec/10_state.md R19 to R21) and the command word
(spec/30_encoding.md R41). Bit 0 is the least significant bit (spec/00_scope.md R9). -/

namespace Sys2Proof

/-- The encoded decimal32 word: 32 bits, one parallel value, never split into bytes (R25). -/
abbrev Word := BitVec 32

/-- The command word of the command view: `op[42:40] b[39:32] a[31:0]` (R41). -/
abbrev Command := BitVec 43

/-- A stored exponent, an exponent port value, or operand B of a command: 8 bits. -/
abbrev Exponent := BitVec 8

/-- The unsigned coefficient magnitude `mag`: 24 bits (R34, R35). -/
abbrev Magnitude := BitVec 24

end Sys2Proof
end

