-- ==== Sys2Proof/Config.lean ====
section
/-! DEFINITION. The design-time parameters of spec/00_scope.md R8. They are fixed, not writable (10_state.md R16).
`WORD_W` = 32 and `EXP_IN_W` = 8 are the widths of `Word` and `Exponent`. -/

namespace Sys2Proof.Config

/-- `COEF_IN_W`: the width of the encoder's coefficient input (R8, decision D2; log entry 6). -/
abbrev coefInW : Nat := 32

/-- `DCOEF_W`: the width of the decoder's signed coefficient output (R8, decision D2; log entry 6). -/
abbrev dcoefW : Nat := 32

/-- `COEF_MAX` (R8). -/
def coefMax : Nat := 9999999

/-- `EXP_MIN` (R8). -/
def expMin : Int := -95

/-- `EXP_MAX` (R8). -/
def expMax : Int := 96

/-- `FAIL_WORD`, the all-ones sentinel of a failed encode (R8, R48). -/
def failWord : Word := 0xFFFFFFFF#32

/-- `CLASSIFY_ON_SIGNED` (R8, R78): this hardware's value. The unit functions take the parameter as an argument
(DESIGN CHOICE of the spec, decision D7; log entry 5; unsafe). -/
def classifyOnSigned : Bool := false

/-- `T_PD`, the propagation delay (R8, decision D17: open). No rule depends on it and nothing here reads it: the model
is untimed (R91; log entry 11). -/
opaque tPd : Nat

end Sys2Proof.Config
end

