-- ==== Sys2Proof/Syntax.lean ====
section
/-! DEFINITION. The commands of spec/30_encoding.md R42 (one constructor per row of spec/opcode_table.json), and the
caller's assembler syntax of R44, whose operands are integers and names that still have to fit a command's fields. -/

namespace Sys2Proof

/-- A command, as R42 lists them. Operand B is a field of ENCODE only: every other operation ignores it (R42), so the
commands that differ in an ignored B are one instruction (log entry 14). -/
inductive Instr where
  /-- `ENCODE`: operand A is the coefficient, operand B the exponent, both two's complement (R46). -/
  | encode (coef : BitVec 32) (exp : Exponent)
  /-- `DECODE`: operand A is the word on `dec_word` (R60). -/
  | decode (w : Word)
  /-- `ZERO`: operand A is the word on `cls_word` (R72). -/
  | zero (w : Word)
  /-- `VALID` (R73). -/
  | valid (w : Word)
  /-- `ISINF` (R74). -/
  | isinf (w : Word)
  /-- `ISNAN` (R75). -/
  | isnan (w : Word)
  deriving DecidableEq, Repr

/-- A `<word>` operand of R44: a value, or a name a previous command bound. -/
inductive WordOperand where
  | value (v : Nat)
  | name (n : String)
  deriving DecidableEq, Repr

/-- One command in the assembler syntax of R44. -/
inductive Asm where
  | encode (coef exp : Int)
  | decode (w : WordOperand)
  | zero (w : WordOperand)
  | valid (w : WordOperand)
  | isinf (w : WordOperand)
  | isnan (w : WordOperand)
  deriving DecidableEq, Repr

/-- A line of a caller's program: a command, and the names its outputs are bound to, in the order R42 lists the outputs
(`w, ok := ENCODE 2, -95` is `⟨["w", "ok"], .encode 2 (-95)⟩`). -/
structure Line where
  binds : List String
  asm : Asm
  deriving DecidableEq, Repr

/-- The pseudo-instructions of R44. -/
inductive Pseudo where
  | classify (w : WordOperand)
  | roundtrip (coef exp : Int)
  deriving DecidableEq, Repr

end Sys2Proof
end

