-- ==== Sys2Proof/WellFormed.lean ====
section
/-! DEFINITION. What must hold before a command runs. An `Instr` needs no check: its fields have exactly the widths of
the command's fields, and no value of `a` or `b` is reserved (spec/30_encoding.md R43). The checks are on what comes
from outside: an assembler operand must fit its field (R44), and a command word must not carry a reserved `op` (R43). -/

namespace Sys2Proof

/-- `<coef>` is in [-2^31, 2^31 - 1] (R44). -/
abbrev coefFits (c : Int) : Prop := -2147483648 ≤ c ∧ c ≤ 2147483647

/-- `<exp>` is in [-128, 127] (R44). -/
abbrev expFits (e : Int) : Prop := -128 ≤ e ∧ e ≤ 127

/-- A literal `<word>` is a 32-bit value (R44). A name is checked when it is resolved. -/
def WordOperand.fits : WordOperand → Bool
  | .value v => decide (v < 4294967296)
  | .name _ => true

/-- "An assembler rejects an operand that does not fit its field" (R44). -/
def Asm.wellFormed : Asm → Bool
  | .encode c e => decide (coefFits c) && decide (expFits e)
  | .decode w => w.fits
  | .zero w => w.fits
  | .valid w => w.fits
  | .isinf w => w.fits
  | .isnan w => w.fits

/-- A command word whose `op` is not one of the reserved codes 110 and 111 (R43). -/
def Command.wellFormed (c : Command) : Bool :=
  c.extractLsb 42 40 != 0b110#3 && c.extractLsb 42 40 != 0b111#3

end Sys2Proof
end

