-- ==== Sys2Proof/Decode.lean ====
section
/-! DEFINITION. The command view's decoder and encoder (spec/30_encoding.md R41 to R43, spec/opcode_table.json), and the
assembler's translation of a line into a command word (R44). The decimal32 WORD's own fields are in
Machine/Operands.lean: that is data, not a command. -/

namespace Sys2Proof

/-- `cmd[42:40]` (R41). -/
def commandOp (c : Command) : BitVec 3 := c.extractLsb 42 40

/-- `cmd[39:32]`, operand B (R41). -/
def commandB (c : Command) : Exponent := c.extractLsb 39 32

/-- `cmd[31:0]`, operand A (R41). -/
def commandA (c : Command) : BitVec 32 := c.extractLsb 31 0

/-- `op ++ b ++ a` (R41). -/
def commandWord (op : BitVec 3) (b : Exponent) (a : BitVec 32) : Command := op ++ b ++ a

/-- What the decoder says of a command word: the instruction it spells, or the reserved `op` it carries. -/
inductive DecodeResult where
  | instr (i : Instr)
  /-- "A command with a reserved `op` spells no operation" (R43). -/
  | reservedOp (op : BitVec 3)
  deriving DecidableEq, Repr

/-- The decoder: total on all 43-bit words; `b` is don't-care outside ENCODE (R42); ops 110 and 111 are rejected by
name (R43). -/
def decode (c : Command) : DecodeResult :=
  if commandOp c = 0b000#3 then .instr (.encode (commandA c) (commandB c))
  else if commandOp c = 0b001#3 then .instr (.decode (commandA c))
  else if commandOp c = 0b010#3 then .instr (.zero (commandA c))
  else if commandOp c = 0b011#3 then .instr (.valid (commandA c))
  else if commandOp c = 0b100#3 then .instr (.isinf (commandA c))
  else if commandOp c = 0b101#3 then .instr (.isnan (commandA c))
  else .reservedOp (commandOp c)

/-- The encoder, from the `op` column of R42. "The assembler writes `b = 0` for the ignored field" (R44). -/
def encode : Instr → Command
  | .encode c e => commandWord 0b000#3 e c
  | .decode w => commandWord 0b001#3 0#8 w
  | .zero w => commandWord 0b010#3 0#8 w
  | .valid w => commandWord 0b011#3 0#8 w
  | .isinf w => commandWord 0b100#3 0#8 w
  | .isnan w => commandWord 0b101#3 0#8 w

/-- The command word in the low 43 bits of a container of `nbits` bits. A container made of whole bytes has bits above
bit 42: they are no part of a command, whose width is 43 (R43), and are not read (DESIGN CHOICE, log entry 9). -/
def commandOfTableWord (nbits w : Nat) : Command := BitVec.ofNat 43 (w % 2 ^ nbits)

/-- The instruction the decoder reads from a word of the opcode table. -/
def decodeTableWord (nbits w : Nat) : Option Instr :=
  match decode (commandOfTableWord nbits w) with
  | .instr i => some i
  | .reservedOp _ => none

/-- The names a caller has bound and their values as unsigned numbers, newest first: "Such names belong to the caller,
not to block state" (R44; log entry 13). -/
abbrev Names := List (String × Nat)

/-- The newest value of a name. -/
def Names.value : Names → String → Option Nat
  | [], _ => none
  | (m, v) :: rest, n => if m = n then some v else Names.value rest n

/-- A `<word>` operand as 32 bits, `none` where the assembler rejects it: a value that does not fit its field, or a
name nothing has bound (R44). -/
def resolveWord (names : Names) : WordOperand → Option Word
  | .value v => if v < 4294967296 then some (BitVec.ofNat 32 v) else none
  | .name n => (names.value n).bind fun v => if v < 4294967296 then some (BitVec.ofNat 32 v) else none

/-- The instruction a line of assembler spells: `a = bits_32(coef)`, `b = bits_8(exp)` for ENCODE, `a = word` for the
others; `none` where the assembler rejects an operand (R44). -/
def assembleInstr (names : Names) : Asm → Option Instr
  | .encode c e => if coefFits c ∧ expFits e then some (.encode (BitVec.ofInt 32 c) (BitVec.ofInt 8 e)) else none
  | .decode w => (resolveWord names w).map .decode
  | .zero w => (resolveWord names w).map .zero
  | .valid w => (resolveWord names w).map .valid
  | .isinf w => (resolveWord names w).map .isinf
  | .isnan w => (resolveWord names w).map .isnan

/-- The command word a line of assembler stands for (R44). -/
def assemble (names : Names) (l : Asm) : Option Command := (assembleInstr names l).map encode

end Sys2Proof
end

