-- ==== Sys2Proof/Machine/State.lean ====
section
/-! DEFINITION. What a model of this block has to hold. The block itself is combinational and stores nothing
(spec/10_state.md R13 to R18): no registers, no program counter, no memory. What the spec gives it is its units' ports
(R19 to R21), and at the command view the command presented and the result read (spec/30_encoding.md R41, R42).

An input port is an `Option` because an input may be undriven, and an output port because it is then unknown and "a
model must not give [it] a value" (spec/70_reset_and_hazards.md R88). -/

namespace Sys2Proof.Machine

/-- The encoder's outputs (R19). -/
structure EncOut where
  /-- `enc_word` -/
  word : Word
  /-- `enc_ok`: true is success, false is OutOfRange. -/
  ok : Bool
  deriving DecidableEq, Repr

/-- The decoder's outputs (R20), with the signed coefficient at width `d` (`DCOEF_W`). -/
structure DecOut (d : Nat) where
  /-- `dec_sign` -/
  sign : BitVec 1
  /-- `dec_comb` -/
  comb : BitVec 5
  /-- `dec_econt` -/
  econt : BitVec 6
  /-- `dec_ccont` -/
  ccont : BitVec 20
  /-- `dec_large` -/
  large : Bool
  /-- `dec_mag` -/
  mag : Magnitude
  /-- `dec_exp`, two's complement -/
  exp : Exponent
  /-- `dec_coef`, two's complement -/
  coef : BitVec d
  /-- `dec_ok` -/
  ok : Bool
  deriving DecidableEq, Repr

/-- The classifier's outputs (R21). -/
structure ClsOut where
  /-- `is_zero` -/
  isZero : Bool
  /-- `is_valid` -/
  isValid : Bool
  /-- `is_inf` -/
  isInf : Bool
  /-- `is_nan` -/
  isNan : Bool
  deriving DecidableEq, Repr

/-- The result column of R42, one constructor per row. OutOfRange is the result `encoded` with `ok` false: "It must not
be a fault, a stuck state or a refusal" (spec/60_exceptions.md R80). -/
inductive Result where
  | encoded (out : EncOut)
  | decoded (out : DecOut Config.dcoefW)
  | zero (bit : Bool)
  | valid (bit : Bool)
  | isInf (bit : Bool)
  | isNan (bit : Bool)
  deriving DecidableEq, Repr

/-- Which outputs a command reads: `op` of R42, "the classification multiplexer". -/
inductive Select where
  | encoder
  | decoder
  | zero
  | valid
  | isInf
  | isNan
  deriving DecidableEq, Repr

/-- The machine: the ports of one instance of the block, the result of the last command, and the commands its caller
has still to present. -/
structure State where
  /-- The caller's ordered list of commands, first to be presented first (R15, R41). The CALLER's, not the block's
  (log entry 1). -/
  pending : List Command
  /-- `enc_coef` (R19) -/
  encCoef : Option (BitVec Config.coefInW)
  /-- `enc_exp` (R19) -/
  encExp : Option Exponent
  /-- `dec_word` (R20) -/
  decWord : Option Word
  /-- `cls_word` (R21) -/
  clsWord : Option Word
  /-- `enc_word`, `enc_ok` (R19) -/
  encOut : Option EncOut
  /-- the `dec_…` outputs (R20) -/
  decOut : Option (DecOut Config.dcoefW)
  /-- `is_zero`, `is_valid`, `is_inf`, `is_nan` (R21) -/
  clsOut : Option ClsOut
  /-- the result of the last command evaluated (R42; log entry 3) -/
  result : Option Result
  deriving DecidableEq, Repr

/-- Right after power-up. No output has a reset value of its own, and there is "no evaluation until the inputs hold
values" (R88). That no input is driven yet is the model's choice (DESIGN CHOICE, log entry 2), and so are the absent
result (log entry 3) and the empty list of commands (log entry 1). -/
def State.reset : State where
  pending := []
  encCoef := none
  encExp := none
  decWord := none
  clsWord := none
  encOut := none
  decOut := none
  clsOut := none
  result := none

/-- Where the machine is stuck. The block itself never traps (R80, R84). -/
inductive Fault where
  /-- Raised by `step` when the caller presents no command: the block "has no evaluation until the inputs hold values"
  (R88, 93_implementation_defined.md I5). Safe: nothing is claimed of a step that does not happen. -/
  | noEvaluation
  deriving DecidableEq, Repr

/-- What the model gives no meaning. -/
inductive Refusal where
  /-- Raised by an arm of `exec` whose instruction has no meaning yet. No arm does. Safe. -/
  | notModelled (mnemonic : String)
  /-- Raised by `step` on a command whose `op` is 110 or 111: "A model refuses it and gives it no result" (R43). Safe. -/
  | reservedOp (op : BitVec 3)
  deriving DecidableEq, Repr

end Sys2Proof.Machine
end

