-- ==== Sys2Proof/Machine/Operands.lean ====
section
/-! DEFINITION. The decimal32 word: its fields, its two forms, and how a magnitude, a stored exponent and a sign are
assembled from the fields and packed into them (spec/30_encoding.md R32 to R38; 40_encode.md R49 to R54; 41_decode.md
R61 to R66). -/

namespace Sys2Proof.Machine

/-- `s = w[31]` (R32). -/
def signField (w : Word) : BitVec 1 := w.extractLsb 31 31

/-- `comb = w[30:26]` (R32). -/
def combField (w : Word) : BitVec 5 := w.extractLsb 30 26

/-- `econt = w[25:20]` (R32). -/
def econtField (w : Word) : BitVec 6 := w.extractLsb 25 20

/-- `ccont = w[19:0]` (R32). -/
def ccontField (w : Word) : BitVec 20 := w.extractLsb 19 0

/-- The word is read in the large form exactly when `comb[4:3] = 0b11` (R33, R62). -/
def isLargeComb (comb : BitVec 5) : Bool := comb.extractLsb 4 3 == 0b11#2

/-- The magnitude the fields hold: R63 (normal form) and R64 (large form), R38. -/
def assembleMag (comb : BitVec 5) (ccont : BitVec 20) : Magnitude :=
  if isLargeComb comb then 0b100#3 ++ comb.extractLsb 0 0 ++ ccont
  else 0b0#1 ++ comb.extractLsb 2 0 ++ ccont

/-- The stored exponent the fields hold: R63 (`comb[4:3]`, by 90_conflicts.md C1) and R64 (`comb[2:1]`), R38. -/
def assembleExp (comb : BitVec 5) (econt : BitVec 6) : Exponent :=
  if isLargeComb comb then comb.extractLsb 2 1 ++ econt else comb.extractLsb 4 3 ++ econt

/-- The signed value of a sign and a magnitude: `(s == 1) ? -uint(mag) : uint(mag)` (R66). -/
def foldSign (s : BitVec 1) (mag : Magnitude) : Int :=
  if s = 1#1 then -(mag.toNat : Int) else (mag.toNat : Int)

/-- `s = 1` when the coefficient is negative and 0 otherwise (R49). -/
def signOf (c : Int) : BitVec 1 := if c < 0 then 1#1 else 0#1

/-- `m = bits_24(abs(c))`, with the mathematical absolute value (R47, R50). -/
def magOf (c : Int) : Magnitude := BitVec.ofNat 24 c.natAbs

/-- `se = bits_8(e)`, the two's-complement pattern, no bias (R50). -/
def storedExpOf (e : Int) : Exponent := BitVec.ofInt 8 e

/-- The combination field: large form when `m[23] = 1` (R51, R53), else normal form (R52). -/
def packComb (m : Magnitude) (se : Exponent) : BitVec 5 :=
  if m.extractLsb 23 23 = 1#1 then 0b11#2 ++ se.extractLsb 7 6 ++ m.extractLsb 20 20
  else se.extractLsb 7 6 ++ m.extractLsb 22 20

/-- `s ++ comb ++ se[5:0] ++ m[19:0]` (R54). -/
def packWord (s : BitVec 1) (m : Magnitude) (se : Exponent) : Word :=
  s ++ packComb m se ++ se.extractLsb 5 0 ++ m.extractLsb 19 0

/-- The four groups of R37. -/
inductive Form where
  | normal
  | largeFinite
  | infinity
  | nan
  deriving DecidableEq, Repr

/-- One match/mask pair of R37: a word is in the row's form when `(w & mask) == match`. -/
structure FormRow where
  form : Form
  mask : Word
  pattern : Word
  deriving DecidableEq, Repr

/-- The table of R37, one row for each of its match values. -/
def formTable : List FormRow :=
  [⟨.normal, 0x60000000#32, 0x00000000#32⟩, ⟨.normal, 0x60000000#32, 0x20000000#32⟩,
   ⟨.normal, 0x60000000#32, 0x40000000#32⟩, ⟨.largeFinite, 0x78000000#32, 0x60000000#32⟩,
   ⟨.largeFinite, 0x78000000#32, 0x68000000#32⟩, ⟨.largeFinite, 0x78000000#32, 0x70000000#32⟩,
   ⟨.infinity, 0x7C000000#32, 0x78000000#32⟩, ⟨.nan, 0x7C000000#32, 0x7C000000#32⟩]

/-- A word matches a row of R37. -/
def FormRow.covers (r : FormRow) (w : Word) : Bool := w &&& r.mask == r.pattern

end Sys2Proof.Machine
end

