-- ==== Sys2Proof/Machine/Flags.lean ====
section
/-! DEFINITION. The 1-bit outputs: the encoder's range check, the decoder's success flag and the four predicates
(spec/40_encode.md R47, 41_decode.md R68, 42_classify.md R72 to R75, R78). None of them persists (10_state.md R17). -/

namespace Sys2Proof.Machine

/-- ENCODE fails exactly when `abs(c) > 9999999`, or `e < -95`, or `e > 96`, on mathematical integers (R47). -/
def outOfRange (c e : Int) : Bool :=
  decide (Config.coefMax < c.natAbs) || decide (e < Config.expMin) || decide (Config.expMax < e)

/-- `dec_ok = 1` for every word (R68). -/
def decodeOk (_ : Word) : Bool := true

/-- What "decoded coefficient" means in ZERO and VALID: the signed coefficient where `CLASSIFY_ON_SIGNED`, else the
unsigned magnitude (R78). -/
def classifiedValue {d : Nat} (onSigned : Bool) (out : DecOut d) : Int :=
  if onSigned then out.coef.toInt else (out.mag.toNat : Int)

/-- `(v == 0) or (v > 9999999)` (R72). -/
def zeroFlag (v : Int) : Bool := decide (v = 0) || decide ((Config.coefMax : Int) < v)

/-- `(d.ok == 1) and (-95 <= int(d.exp) <= 96) and (0 <= v <= 9999999)` (R73). -/
def validFlag (ok : Bool) (exp v : Int) : Bool :=
  ok && (decide (Config.expMin ≤ exp) && decide (exp ≤ Config.expMax)) &&
    (decide (0 ≤ v) && decide (v ≤ (Config.coefMax : Int)))

/-- `comb == 0b11110` (R74). -/
def infFlag (comb : BitVec 5) : Bool := comb == 0b11110#5

/-- `comb == 0b11111` (R75). -/
def nanFlag (comb : BitVec 5) : Bool := comb == 0b11111#5

end Sys2Proof.Machine
end

