-- ==== Sys2Proof/Machine/Units.lean ====
section
/-! DEFINITION. The three combinational units as functions from inputs to outputs, in the words of the pseudocode of
spec/40_encode.md R46, 41_decode.md R60 and 42_classify.md R72 to R75. They take the parameters of 00_scope.md R8 as
arguments: the widths `n` (`COEF_IN_W`) and `d` (`DCOEF_W`), and `onSigned` (`CLASSIFY_ON_SIGNED`). -/

namespace Sys2Proof.Machine

/-- ENCODE (R46): OutOfRange is the data `(FAIL_WORD, 0)` (R48), whichever input is out of range (R81). The
magnitude packed is at most 9,999,999, and the fields hold R55's bits. The magnitude the word DECODES to is R70's, and
so is above 9,999,999 for some magnitudes below 2^23 with an exponent in [-64, -1], against R55: there the bit rules
and vector RT9 win over prose, as the head of 90_conflicts.md and C3 have it (DEDUCED, log entry 8). -/
def encoderUnit {n : Nat} (encCoef : BitVec n) (encExp : Exponent) : EncOut :=
  let c := encCoef.toInt
  let e := encExp.toInt
  if outOfRange c e then ⟨Config.failWord, false⟩
  else ⟨packWord (signOf c) (magOf c) (storedExpOf e), true⟩

/-- DECODE (R60): defined for every word, infinity and NaN words included (R71), and nothing is clamped (R69). -/
def decoderUnit (d : Nat) (w : Word) : DecOut d :=
  let s := signField w
  let comb := combField w
  let econt := econtField w
  let ccont := ccontField w
  let mag := assembleMag comb ccont
  { sign := s
    comb := comb
    econt := econt
    ccont := ccont
    large := isLargeComb comb
    mag := mag
    exp := assembleExp comb econt
    coef := BitVec.ofInt d (foldSign s mag)
    ok := decodeOk w }

/-- The classifier: four independent outputs of one word (R72 to R76), computed by its own copy of the decode logic
(decision D18). -/
def classifierUnit (d : Nat) (onSigned : Bool) (w : Word) : ClsOut :=
  let out := decoderUnit d w
  let v := classifiedValue onSigned out
  { isZero := zeroFlag v
    isValid := validFlag out.ok out.exp.toInt v
    isInf := infFlag (combField w)
    isNan := nanFlag (combField w) }

end Sys2Proof.Machine
end

