-- ==== Sys2Proof/Machine/Ops.lean ====
section
/-! DEFINITION. The operations on the ports and on the caller's list of commands that every meaning is built from, and
the caller's own direct use of the ports (spec/10_state.md R19 to R21, 70_reset_and_hazards.md R88).

There is no memory, no register and no exception to write an operation for: 20_memory.md R23, 10_state.md R14,
60_exceptions.md R80 and R84 ("No trap entry, vector, trap-return operation, nesting or delegation exists"). -/

namespace Sys2Proof.Machine

/-- The encoder's outputs for what stands on its inputs: unknown while one of them is undriven (R88; log entry 12). -/
def encoderOutputs (c : Option (BitVec Config.coefInW)) (e : Option Exponent) : Option EncOut :=
  match c, e with
  | some c, some e => some (encoderUnit c e)
  | some _, none => none
  | none, _ => none

/-- The decoder's outputs for what stands on its input (R88). -/
def decoderOutputs (w : Option Word) : Option (DecOut Config.dcoefW) := w.map (decoderUnit Config.dcoefW)

/-- The classifier's outputs for what stands on its input (R88), with this hardware's `CLASSIFY_ON_SIGNED`. -/
def classifierOutputs (w : Option Word) : Option ClsOut :=
  w.map (classifierUnit Config.dcoefW Config.classifyOnSigned)

/-- The caller puts values on the encoder's inputs, or leaves them undriven; the encoder's outputs follow at once (R27)
and nothing else changes (R86). -/
def State.setEncoder (c : Option (BitVec Config.coefInW)) (e : Option Exponent) (s : State) : State :=
  { s with encCoef := c, encExp := e, encOut := encoderOutputs c e }

/-- The same for the decoder. -/
def State.setDecoder (w : Option Word) (s : State) : State :=
  { s with decWord := w, decOut := decoderOutputs w }

/-- The same for the classifier. -/
def State.setClassifier (w : Option Word) (s : State) : State :=
  { s with clsWord := w, clsOut := classifierOutputs w }

/-- "A caller who wants both results for one word ties `cls_word` and `dec_word` together" (R21). -/
def State.setTied (w : Option Word) (s : State) : State := (s.setDecoder w).setClassifier w

/-- What the outputs say when `sel` chooses among them: the result column of R42. -/
def State.selected (sel : Select) (s : State) : Option Result :=
  match sel with
  | .encoder => s.encOut.map .encoded
  | .decoder => s.decOut.map .decoded
  | .zero => s.clsOut.map fun o => .zero o.isZero
  | .valid => s.clsOut.map fun o => .valid o.isValid
  | .isInf => s.clsOut.map fun o => .isInf o.isInf
  | .isNan => s.clsOut.map fun o => .isNan o.isNan

/-- The command's result is read: `op` selects which outputs (R42). -/
def State.readResult (sel : Select) (s : State) : State := { s with result := s.selected sel }

/-- The caller presents the next command of its list; `none` when it has none left. -/
def State.fetch (s : State) : Option (Command × State) :=
  match s.pending with
  | [] => none
  | c :: rest => some (c, { s with pending := rest })

/-- The caller makes `c` the next command it presents, in place of the one that stood there. -/
def State.placeCommand (c : Command) (s : State) : State := { s with pending := c :: s.pending.tail }

/-- `enc_coef = sext_COEF_IN_W(a)` (R41). -/
def coefOfOperand (a : BitVec 32) : BitVec Config.coefInW := a.signExtend Config.coefInW

end Sys2Proof.Machine
end

