-- ==== Sys2Proof/Machine/Classifier.lean ====
section
/-! DEFINITION. The classifier family: ZERO, VALID, ISINF, ISNAN (spec/42_classify.md R72 to R75). Each drives
`cls_word = a` (R41); all four outputs are computed at once, and the command reads its own one (R42). -/

namespace Sys2Proof.Machine

/-- ZERO reads `is_zero` (R72). -/
def execZero (a : Word) (s : State) : Host.Outcome State Fault Refusal :=
  .next ((s.setClassifier (some a)).readResult .zero)

/-- VALID reads `is_valid` (R73). -/
def execValid (a : Word) (s : State) : Host.Outcome State Fault Refusal :=
  .next ((s.setClassifier (some a)).readResult .valid)

/-- ISINF reads `is_inf` (R74). -/
def execIsinf (a : Word) (s : State) : Host.Outcome State Fault Refusal :=
  .next ((s.setClassifier (some a)).readResult .isInf)

/-- ISNAN reads `is_nan` (R75). -/
def execIsnan (a : Word) (s : State) : Host.Outcome State Fault Refusal :=
  .next ((s.setClassifier (some a)).readResult .isNan)

end Sys2Proof.Machine
end

