-- ==== Sys2Proof/Machine/Decoder.lean ====
section
/-! DEFINITION. The decoder family: DECODE (spec/41_decode.md R60). -/

namespace Sys2Proof.Machine

/-- DECODE drives `dec_word = a` (R41) and reads the decoder's nine outputs (R42, R60). -/
def execDecode (a : Word) (s : State) : Host.Outcome State Fault Refusal :=
  .next ((s.setDecoder (some a)).readResult .decoder)

end Sys2Proof.Machine
end

