-- ==== Sys2Proof/Machine/Encoder.lean ====
section
/-! DEFINITION. The encoder family: ENCODE (spec/40_encode.md R46). -/

namespace Sys2Proof.Machine

/-- ENCODE drives `enc_coef = sext_COEF_IN_W(a)` and `enc_exp = b` (R41) and reads `(enc_word, enc_ok)` (R42, R46). An
out-of-range input is a next state whose result is the OutOfRange data (R79, R80). -/
def execEncode (a : BitVec 32) (b : Exponent) (s : State) : Host.Outcome State Fault Refusal :=
  .next ((s.setEncoder (some (coefOfOperand a)) (some b)).readResult .encoder)

end Sys2Proof.Machine
end

