-- ==== Sys2Proof/Machine/Dispatch.lean ====
section
/-! DEFINITION. One arm per command of spec/30_encoding.md R42. -/

namespace Sys2Proof.Machine

def exec (i : Instr) (s : State) : Host.Outcome State Fault Refusal :=
  match i with
  | .encode coef exp => Sys2Proof.Machine.execEncode coef exp s
  | .decode w => Sys2Proof.Machine.execDecode w s
  | .zero w => Sys2Proof.Machine.execZero w s
  | .valid w => Sys2Proof.Machine.execValid w s
  | .isinf w => Sys2Proof.Machine.execIsinf w s
  | .isnan w => Sys2Proof.Machine.execIsnan w s

end Sys2Proof.Machine
end

