-- ==== Sys2Proof/Machine/Step.lean ====
section
/-! DEFINITION. One step is one command: the caller presents the next command of its list and one unit is evaluated,
indivisibly (spec/20_memory.md R27, 30_encoding.md R41). -/

namespace Sys2Proof.Machine

/-- One step. With no command presented there is no evaluation (R88); a reserved command is refused and has no result
(R43); every other command is evaluated. -/
def step (s : State) : Host.Outcome State Fault Refusal :=
  match s.fetch with
  | none => .fault .noEvaluation
  | some (c, s') =>
    match decode c with
    | .instr i => exec i s'
    | .reservedOp op => .refused (.reservedOp op)

/-- `s` with the command in a table word of `nbits` bits as the next one its caller presents (log entry 1). -/
def State.withFetchWord (s : State) (nbits w : Nat) : State := s.placeCommand (commandOfTableWord nbits w)

end Sys2Proof.Machine
end

