-- ==== Sys2Proof/Safety.lean ====
section
/-! DEFINITION. What a good state and a safe step are, in the terms claims use. -/

namespace Sys2Proof.Machine

/-- Every unit's outputs are the unit's function of what stands on its inputs, and unknown while an input is undriven:
"Each output of each unit is a pure function of that unit's current inputs" (spec/10_state.md R13, R88). -/
abbrev State.PortsSettled (s : State) : Prop :=
  s.encOut = encoderOutputs s.encCoef s.encExp ∧ s.decOut = decoderOutputs s.decWord ∧
    s.clsOut = classifierOutputs s.clsWord

/-- The selection a result was read by. -/
def Result.select : Result → Select
  | .encoded _ => .encoder
  | .decoded _ => .decoder
  | .zero _ => .zero
  | .valid _ => .valid
  | .isInf _ => .isInf
  | .isNan _ => .isNan

/-- A result, if there is one, is what its selection reads from the outputs now (R42). -/
abbrev State.ResultCurrent (s : State) : Prop := (s.result.bind fun r => s.selected r.select) = s.result

/-- The invariant of the machine. -/
abbrev State.Inv (s : State) : Prop := s.PortsSettled ∧ s.ResultCurrent

/-- A command is presented and it spells an operation. -/
def State.Ready (s : State) : Bool :=
  match s.pending with
  | [] => false
  | c :: _ => Command.wellFormed c

/-- A safe step is one that ends in a next state. -/
def Safe (s : State) : Prop := ∃ t, step s = .next t

end Sys2Proof.Machine
end

