-- ==== Sys2Proof/Certificates/Slice0/Obligations.lean ====
section
/-! DEFINITION. The statements for the provers. `Reading` says in plain arithmetic on a word's number what the spec says
in bit slices, so that a statement does not repeat the model's own expression. -/

namespace Sys2Proof.Reading

open Sys2Proof.Machine

/-- ENCODE's accepted inputs (spec/40_encode.md R47). -/
abbrev InRange (c e : Int) : Prop := c.natAbs ≤ 9999999 ∧ -95 ≤ e ∧ e ≤ 96

/-- `bits_8(e)` as a number: `e + 256` for negative `e`, else `e` (R50). -/
def storedOf (e : Int) : Nat := (e % 256).toNat

/-- The number of the word ENCODE gives an in-range pair: sign at bit 31; normal form `se[7:6]` at 30-29 and
`m[22:20]` at 28-26, large form `11` at 30-29, `se[7:6]` at 28-27 and `m[20]` at 26; `se[5:0]` at 25-20; `m[19:0]`
(R34, R35, R49 to R54). -/
def encodedNat (c e : Int) : Nat :=
  (if c < 0 then 2147483648 else 0) +
    (if 8388608 ≤ c.natAbs then
        1610612736 + storedOf e / 64 * 134217728 + c.natAbs / 1048576 % 2 * 67108864
      else storedOf e / 64 * 536870912 + c.natAbs / 1048576 % 8 * 67108864) +
    storedOf e % 64 * 1048576 + c.natAbs % 1048576

/-- `w[31]`. -/
def sign (w : Word) : Nat := w.toNat / 2147483648

/-- `w[30:26]`. -/
def comb (w : Word) : Nat := w.toNat / 67108864 % 32

/-- `w[25:20]`. -/
def econt (w : Word) : Nat := w.toNat / 1048576 % 64

/-- `w[19:0]`. -/
def ccont (w : Word) : Nat := w.toNat % 1048576

/-- `uint(mag)` (R63, R64). -/
def mag (w : Word) : Nat :=
  if comb w / 8 = 3 then 8388608 + 1048576 * (comb w % 2) + ccont w else 1048576 * (comb w % 8) + ccont w

/-- The stored exponent `se` (R63, R64). -/
def stored (w : Word) : Nat :=
  if comb w / 8 = 3 then comb w / 2 % 4 * 64 + econt w else comb w / 8 * 64 + econt w

/-- `int(se)` (R65). -/
def exponent (w : Word) : Int := if stored w < 128 then (stored w : Int) else (stored w : Int) - 256

/-- The signed coefficient (R66). -/
def coefficient (w : Word) : Int := if sign w = 1 then -(mag w : Int) else (mag w : Int)

/-- The exponent lies in the format's limits. -/
abbrev ExponentValid (w : Word) : Prop := -95 ≤ exponent w ∧ exponent w ≤ 96

/-- Which of the three units a command evaluates (R42). -/
inductive TheUnit where
  | encoder
  | decoder
  | classifier
  deriving DecidableEq, Repr

def unitOf : Instr → TheUnit
  | .encode _ _ => .encoder
  | .decode _ => .decoder
  | .zero _ => .classifier
  | .valid _ => .classifier
  | .isinf _ => .classifier
  | .isnan _ => .classifier

/-- The four predicate commands of a word. -/
def predicates (w : Word) : List Instr := [.zero w, .valid w, .isinf w, .isnan w]

end Sys2Proof.Reading

open Sys2Proof Sys2Proof.Machine

/-! ### The step and the command view -/

/-- One step evaluates the command at the head of the caller's list (R15, R27, R41). The list is the model's choice
(log entry 1). -/
def Obligations.StepRunsPresentedCommand : Prop :=
  ∀ (s : State) (c : Command) (rest : List Command) (i : Instr),
    s.pending = c :: rest → decode c = .instr i → step s = exec i { s with pending := rest }

/-- With no command presented there is no evaluation and so no next state: "it has no evaluation until the inputs hold
values" (R88, decision D15). That this is a fault is the model's choice (log entry 2). That a command is presented
by standing in the caller's list is log entry 1. -/
def Obligations.StepWithoutCommandStops : Prop :=
  ∀ s : State, s.pending = [] → step s = .fault .noEvaluation

/-- Ops 110 and 111 are refused, by name, and every other command is evaluated whatever its `a` and `b` (R43, decision
D10). The result is read through `result`, the model's own field (log entry 3). That a step presents the first
command of the caller's list and takes it off, so that the rest is left, is the model's choice (log entry 1). -/
def Obligations.StepRefusesExactlyReservedOps : Prop :=
  ∀ (s : State) (c : Command) (rest : List Command), s.pending = c :: rest →
    (6 ≤ c.toNat / 2 ^ 40 → step s = .refused (.reservedOp (BitVec.ofNat 3 (c.toNat / 2 ^ 40)))) ∧
    (c.toNat / 2 ^ 40 ≤ 5 → ∃ t r, step s = .next t ∧ t.pending = rest ∧ t.result = some r)

/-- A step is safe exactly when a command is presented and its `op` is not reserved: nothing else stops the machine,
and OutOfRange does not (R43, decision D10; R88, decision D15; R80, decision D16). That a command is presented by
standing first in the caller's list (log entry 1) and that a step without one is a fault (log entry 2) are the
model's choices. -/
def Obligations.StepIsSafeExactlyWhenReady : Prop := ∀ s : State, Safe s ↔ s.Ready = true

/-- At `State.reset` the invariant holds, no input is driven, no output has a value, there is no result and no command
is presented, so a step ends in the fault. R88 says that no output has a reset value and that there is no
evaluation until the inputs hold values (decision D15); the rest is the model's: that nothing is driven yet at
reset, that undriven and unknown are `none`, and that such a step is a fault are log entry 2, the absent result is
log entry 3, and the empty list of commands is log entry 1. -/
def Obligations.ResetIsUndrivenAndMeetsInvariant : Prop :=
  State.reset.Inv ∧
    State.reset.encCoef = none ∧ State.reset.encExp = none ∧ State.reset.decWord = none ∧ State.reset.clsWord = none ∧
    State.reset.encOut = none ∧ State.reset.decOut = none ∧ State.reset.clsOut = none ∧ State.reset.result = none ∧
    step State.reset = .fault .noEvaluation

/-- Command words of spec/95_test_vectors.md section 5, each as written there, decode to the command written beside
them (P1, P2, P3), and P6's is reserved. -/
def Obligations.DecodesWrittenCommandWords : Prop :=
  decode 0x0000098967F#43 = .instr (.encode 9999999#32 0#8) ∧
    decode 0x0FF00000002#43 = .instr (.encode 2#32 (BitVec.ofInt 8 (-1))) ∧
    decode 0x1006408967F#43 = .instr (.decode 0x6408967F#32) ∧
    decode 0x2006408967F#43 = .instr (.zero 0x6408967F#32) ∧
    decode 0x3006408967F#43 = .instr (.valid 0x6408967F#32) ∧
    decode 0x4006408967F#43 = .instr (.isinf 0x6408967F#32) ∧
    decode 0x500FFFFFFFF#43 = .instr (.isnan 0xFFFFFFFF#32) ∧
    decode 0x60012345678#43 = .reservedOp 0b110#3

/-- Decoding an encoded instruction gives it back, at every value of every operand (R41, R42, decision D10). That
operand B is held for ENCODE only, and written as 0 elsewhere, is log entry 14. -/
def Obligations.DecodeOfEncodeIsInstruction : Prop := ∀ i : Instr, decode (encode i) = .instr i

/-- Encoding a decoded command gives the command back but for the operand B that every operation except ENCODE ignores
(R42), which the encoder writes as 0 (R44). That operand B is held for ENCODE only, and written as 0 elsewhere, is
log entry 14. -/
def Obligations.EncodeOfDecodeClearsIgnoredOperandB : Prop :=
  ∀ (c : Command) (i : Instr), decode c = .instr i →
    (encode i).toNat = if c.toNat / 2 ^ 40 = 0 then c.toNat else c.toNat / 2 ^ 40 * 2 ^ 40 + c.toNat % 2 ^ 32

/-- Outside ENCODE operand B is don't-care: two commands with the same `op` and `a` run alike from every state (R42,
decision D10). The list the command is presented from is the model's choice (log entry 1). -/
def Obligations.CommandsDifferingInIgnoredBRunAlike : Prop :=
  ∀ (s : State) (c c' : Command) (rest : List Command),
    1 ≤ c.toNat / 2 ^ 40 → c'.toNat / 2 ^ 40 = c.toNat / 2 ^ 40 → c'.toNat % 2 ^ 32 = c.toNat % 2 ^ 32 →
    step { s with pending := c' :: rest } = step { s with pending := c :: rest }

/-- A table word placed as the next command is the one that runs, and it stands in place of the command that was next
(log entries 1 and 9: the model's own load). -/
def Obligations.TableWordRunsItsInstruction : Prop :=
  ∀ (s : State) (nbits w : Nat) (i : Instr), decodeTableWord nbits w = some i →
    step (s.withFetchWord nbits w) = exec i { s with pending := s.pending.tail }

/-- Each command that carries a value for every operand has a next state with a result, from every state (R22, R82).
The result is read through `result`, the model's own field (log entry 3). -/
def Obligations.EveryCommandCompletes : Prop :=
  ∀ (i : Instr) (s : State), ∃ t r, exec i s = .next t ∧ t.result = some r

/-- The frame of a command: the caller's list stands, and so do the ports of the units it does not evaluate: "An
evaluation of one unit does not change the outputs of another" (R86). That the list stands is the model's choice
(log entry 1), and that a unit's inputs stay driven is log entry 10. -/
def Obligations.EvaluationLeavesOtherUnits : Prop :=
  ∀ (i : Instr) (s t : State), exec i s = .next t →
    t.pending = s.pending ∧
    (Reading.unitOf i ≠ .encoder → t.encCoef = s.encCoef ∧ t.encExp = s.encExp ∧ t.encOut = s.encOut) ∧
    (Reading.unitOf i ≠ .decoder → t.decWord = s.decWord ∧ t.decOut = s.decOut) ∧
    (Reading.unitOf i ≠ .classifier → t.clsWord = s.clsWord ∧ t.clsOut = s.clsOut)

/-! ### ENCODE -/

/-- Every out-of-range input gives the sentinel and the failure flag, as data, and nothing but the encoder's ports and
the result changes (R48; the failing inputs are those of R47). That -2^31 is among them is the spec's decision D4
(log entry 7, unsafe for that one input). The rest of the next state is the model's choice: the other units'
inputs still driven (log entry 10), the caller's list as it was (log entry 1), and `result` (log entry 3). -/
def Obligations.EncodeOutOfRangeGivesFailWord : Prop :=
  ∀ (s : State) (a : BitVec 32) (b : Exponent),
    (9999999 < a.toInt.natAbs ∨ b.toInt < -95 ∨ 96 < b.toInt) →
    exec (.encode a b) s = .next { s with
      encCoef := some a
      encExp := some b
      encOut := some ⟨0xFFFFFFFF#32, false⟩
      result := some (.encoded ⟨0xFFFFFFFF#32, false⟩) }

/-- ENCODE completes from every state on every input, and its flag is 1 exactly on the inputs in range (R47, whose
absolute value of the most negative input is decision D4, log entry 7). The rest of the next state is the model's
choice: the other units' inputs still driven (log entry 10), the caller's list as it was (log entry 1), and
`result` (log entry 3). -/
def Obligations.EncodeSucceedsExactlyInRange : Prop :=
  ∀ (s : State) (a : BitVec 32) (b : Exponent), ∃ o : EncOut,
    exec (.encode a b) s = .next { s with
      encCoef := some a, encExp := some b, encOut := some o, result := some (.encoded o) } ∧
    (o.ok = true ↔ Reading.InRange a.toInt b.toInt)

/-- The word of every input in range, bit for bit, and that nothing but the encoder's ports and the result changes:
sign (R49), magnitude and stored exponent (R50), form (R51), normal-form packing (R52, R34), large-form packing
(R53's first sentence, R35), assembly (R54). The rest of the next state is the model's choice: the other units'
inputs still driven (log entry 10), the caller's list as it was (log entry 1), and `result` (log entry 3). -/
def Obligations.EncodeInRangeWord : Prop :=
  ∀ (s : State) (a : BitVec 32) (b : Exponent), Reading.InRange a.toInt b.toInt →
    ∃ w : Word, w.toNat = Reading.encodedNat a.toInt b.toInt ∧
      exec (.encode a b) s = .next { s with
        encCoef := some a
        encExp := some b
        encOut := some ⟨w, true⟩
        result := some (.encoded ⟨w, true⟩) }

/-- Negating an in-range coefficient succeeds and flips bit 31 of the word only; at 0 the words are equal (R56, marked
there as derived). -/
def Obligations.EncodeSignSymmetry : Prop :=
  ∀ (s : State) (a : BitVec 32) (b : Exponent), Reading.InRange a.toInt b.toInt →
    ∃ (t t' : State) (w w' : Word),
      exec (.encode a b) s = .next t ∧ t.encOut = some ⟨w, true⟩ ∧
      exec (.encode (-a) b) s = .next t' ∧ t'.encOut = some ⟨w', true⟩ ∧
      (a ≠ 0#32 → w' = w ^^^ 0x80000000#32) ∧ (a = 0#32 → w' = w)

/-- A successful encode gives an infinity word, and ISINF says so, exactly when the exponent is in [-64, -1], the
magnitude is at least 6,291,456 and its bit 20 is 0; a NaN word, and ISNAN says so, exactly when bit 20 is 1
instead (R57, marked there as derived). The result is read through `result`, the model's own field (log entry 3). -/
def Obligations.EncodeSpecialWordsExactly : Prop :=
  ∀ (s : State) (a : BitVec 32) (b : Exponent), Reading.InRange a.toInt b.toInt →
    ∃ (t u v : State) (w : Word) (p q : Bool),
      exec (.encode a b) s = .next t ∧ t.encOut = some ⟨w, true⟩ ∧
      exec (.isinf w) t = .next u ∧ u.result = some (.isInf p) ∧
      (p = true ↔ (-64 ≤ b.toInt ∧ b.toInt ≤ -1) ∧ 6291456 ≤ a.toInt.natAbs ∧ a.toInt.natAbs / 1048576 % 2 = 0) ∧
      exec (.isnan w) t = .next v ∧ v.result = some (.isNan q) ∧
      (q = true ↔ (-64 ≤ b.toInt ∧ b.toInt ≤ -1) ∧ 6291456 ≤ a.toInt.natAbs ∧ a.toInt.natAbs / 1048576 % 2 = 1)

/-- Zero encodes with sign 0 and magnitude field 0 at every exponent in range, as the all-zero word only at exponent
0, and for exponents in [-64, -1] the word does not decode as magnitude 0. No success word of any input decodes to
sign 1 and magnitude 0 (R58, marked there as derived). -/
def Obligations.EncoderGivesNoNegativeZero : Prop :=
  (∀ (s : State) (b : Exponent), -95 ≤ b.toInt → b.toInt ≤ 96 →
    ∃ (t : State) (w : Word), exec (.encode 0#32 b) s = .next t ∧ t.encOut = some ⟨w, true⟩ ∧
      Reading.sign w = 0 ∧ Reading.ccont w = 0 ∧ (w = 0#32 ↔ b = 0#8) ∧
      (Reading.mag w = 0 ↔ b.toInt < -64 ∨ -1 < b.toInt)) ∧
  (∀ (s : State) (a : BitVec 32) (b : Exponent), Reading.InRange a.toInt b.toInt →
    ∃ (t : State) (w : Word), exec (.encode a b) s = .next t ∧ t.encOut = some ⟨w, true⟩ ∧
      ¬ (Reading.sign w = 1 ∧ Reading.mag w = 0))

/-- ENCODE is not injective: a magnitude below 2^23 with an exponent in [-64, -1] gives the word of the large-form
input R59 computes from it, where that input is in range (R59, marked there as derived). -/
def Obligations.EncodeNotInjective : Prop :=
  ∀ (s : State) (a a' : BitVec 32) (b b' : Exponent), Reading.InRange a.toInt b.toInt →
    a.toInt.natAbs < 8388608 → -64 ≤ b.toInt → b.toInt ≤ -1 →
    (a'.toInt = if a.toInt < 0 then -(8388608 + (a.toInt.natAbs % 2097152 : Nat) : Int)
      else (8388608 + (a.toInt.natAbs % 2097152 : Nat) : Int)) →
    b'.toNat = a.toInt.natAbs / 2097152 * 64 + b.toNat % 64 →
    Reading.InRange a'.toInt b'.toInt →
    ∃ (t t' : State) (w : Word),
      exec (.encode a b) s = .next t ∧ exec (.encode a' b') s = .next t' ∧
      t.encOut = some ⟨w, true⟩ ∧ t'.encOut = some ⟨w, true⟩

/-- Exactly which success words decode to a magnitude above 9,999,999. R40 and R55 (both marked there as derived) say
none does; R46, R60 and R70 and vector RT9 (`ENCODE 8388607, -1`, which decodes to 10485759) say which do, and the
bit rules are followed (log entry 8). Outside these inputs R55 holds. -/
def Obligations.EncodedNonCanonicalExactly : Prop :=
  ∀ (s : State) (a : BitVec 32) (b : Exponent), Reading.InRange a.toInt b.toInt →
    ∃ (t u : State) (w : Word) (d : DecOut 32),
      exec (.encode a b) s = .next t ∧ t.encOut = some ⟨w, true⟩ ∧
      exec (.decode w) t = .next u ∧ u.decOut = some d ∧
      (9999999 < d.mag.toNat ↔
        (-64 ≤ b.toInt ∧ b.toInt ≤ -1) ∧ a.toInt.natAbs < 8388608 ∧ 1611392 ≤ a.toInt.natAbs % 2097152)

/-- The encoder's rules (R46 to R54) hold at every width of at least 25 bits of its coefficient port (R8, decision D2,
log entry 6), and sign-extending a command's operand to a wider port changes no output (R41). At each width the
most negative coefficient fails because the absolute value is mathematical, the spec's decision D4 (log entry 7). -/
def Obligations.EncoderRulesHoldAtEveryWidth : Prop :=
  ∀ (n : Nat), 25 ≤ n →
    (∀ (x : BitVec n) (b : Exponent),
      (Reading.InRange x.toInt b.toInt →
        ∃ w : Word, w.toNat = Reading.encodedNat x.toInt b.toInt ∧ encoderUnit x b = ⟨w, true⟩) ∧
      (¬ Reading.InRange x.toInt b.toInt → encoderUnit x b = ⟨0xFFFFFFFF#32, false⟩)) ∧
    (32 ≤ n → ∀ (a : BitVec 32) (b : Exponent), encoderUnit (a.signExtend n) b = encoderUnit a b)

/-! ### DECODE -/

/-- DECODE completes from every state on every word, changes nothing but the decoder's ports and the result, and
drives the four fields of the word and the form on its outputs (R61, R62). The rest of the next state is the
model's choice: the other units' inputs still driven (log entry 10), the caller's list as it was (log entry 1),
and `result` (log entry 3). -/
def Obligations.DecodeExtractsFieldsAndForm : Prop :=
  ∀ (s : State) (w : Word), ∃ d : DecOut 32,
    exec (.decode w) s = .next { s with decWord := some w, decOut := some d, result := some (.decoded d) } ∧
    d.sign.toNat = Reading.sign w ∧ d.comb.toNat = Reading.comb w ∧ d.econt.toNat = Reading.econt w ∧
    d.ccont.toNat = Reading.ccont w ∧ (d.large = true ↔ Reading.comb w / 8 = 3)

/-- DECODE rebuilds magnitude and stored exponent in the normal form (R63) and in the large form (R64), and succeeds
on every word (R68). The rest of the next state is the model's choice: the other units' inputs still driven (log
entry 10), the caller's list as it was (log entry 1), and `result` (log entry 3). -/
def Obligations.DecodeRebuildsMagnitudeAndExponent : Prop :=
  ∀ (s : State) (w : Word), ∃ d : DecOut 32,
    exec (.decode w) s = .next { s with decWord := some w, decOut := some d, result := some (.decoded d) } ∧
    (Reading.comb w / 8 ≠ 3 →
      d.mag.toNat = 1048576 * (Reading.comb w % 8) + Reading.ccont w ∧
      d.exp.toNat = Reading.comb w / 8 * 64 + Reading.econt w) ∧
    (Reading.comb w / 8 = 3 →
      d.mag.toNat = 8388608 + 1048576 * (Reading.comb w % 2) + Reading.ccont w ∧
      d.exp.toNat = Reading.comb w / 2 % 4 * 64 + Reading.econt w) ∧
    d.ok = true

/-- DECODE's exponent is the stored exponent read as two's complement (R65, marked there as derived), its signed
coefficient is exact, and a set sign with magnitude 0 shows on `dec_sign` only (R66, whose last sentence is marked
as derived). The rest of the next state is the model's choice: the other units' inputs still driven (log entry
10), the caller's list as it was (log entry 1), and `result` (log entry 3). -/
def Obligations.DecodeFoldsSignAndReadsExponent : Prop :=
  ∀ (s : State) (w : Word), ∃ d : DecOut 32,
    exec (.decode w) s = .next { s with decWord := some w, decOut := some d, result := some (.decoded d) } ∧
    d.exp.toInt = Reading.exponent w ∧ d.coef.toInt = Reading.coefficient w ∧
    (Reading.sign w = 1 → Reading.mag w = 0 → d.coef = 0#32 ∧ d.sign = 1#1)

/-- What DECODE can deliver, by form; the large form reaches every exponent pattern (R69, marked there as derived). -/
def Obligations.DecodeOutputRanges : Prop :=
  (∀ (s : State) (w : Word), ∃ (t : State) (d : DecOut 32), exec (.decode w) s = .next t ∧ t.decOut = some d ∧
    (d.large = false → d.mag.toNat ≤ 8388607 ∧ (0 ≤ d.exp.toInt ∧ d.exp.toInt ≤ 127 ∨ -128 ≤ d.exp.toInt ∧ d.exp.toInt ≤ -65)) ∧
    (d.large = true → 8388608 ≤ d.mag.toNat ∧ d.mag.toNat ≤ 10485759) ∧
    (d.comb = 0b11110#5 → 8388608 ≤ d.mag.toNat ∧ d.mag.toNat ≤ 9437183 ∧ -64 ≤ d.exp.toInt ∧ d.exp.toInt ≤ -1) ∧
    (d.comb = 0b11111#5 → 9437184 ≤ d.mag.toNat ∧ d.mag.toNat ≤ 10485759 ∧ -64 ≤ d.exp.toInt ∧ d.exp.toInt ≤ -1) ∧
    -10485759 ≤ d.coef.toInt ∧ d.coef.toInt ≤ 10485759) ∧
  (∀ (s : State) (e : Exponent), ∃ (w : Word) (t : State) (d : DecOut 32),
    exec (.decode w) s = .next t ∧ t.decOut = some d ∧ d.large = true ∧ d.exp = e)

/-- The signed coefficient is exact at every width of at least 25 bits (R8), and the other outputs do not depend on
that width. The width of this hardware, 32, is decision D2 (log entry 6). -/
def Obligations.SignedCoefficientExactAtEveryWidth : Prop :=
  ∀ (n : Nat) (w : Word), 25 ≤ n →
    (decoderUnit n w).coef.toInt = Reading.coefficient w ∧
    (decoderUnit n w).mag = (decoderUnit 32 w).mag ∧ (decoderUnit n w).exp = (decoderUnit 32 w).exp ∧
    (decoderUnit n w).sign = (decoderUnit 32 w).sign ∧ (decoderUnit n w).comb = (decoderUnit 32 w).comb ∧
    (decoderUnit n w).econt = (decoderUnit 32 w).econt ∧ (decoderUnit n w).ccont = (decoderUnit 32 w).ccont ∧
    (decoderUnit n w).large = (decoderUnit 32 w).large ∧ (decoderUnit n w).ok = (decoderUnit 32 w).ok

/-- ENCODE then DECODE gives back coefficient and exponent exactly when the magnitude is at least 2^23 or the exponent
is outside [-64, -1] (R70, marked there as derived; 90_conflicts.md C3). The result is read through `result`, the
model's own field (log entry 3). -/
def Obligations.RoundTripExactlyOnDomain : Prop :=
  ∀ (s : State) (a : BitVec 32) (b : Exponent), Reading.InRange a.toInt b.toInt →
    ∃ (t u : State) (w : Word) (d : DecOut 32),
      exec (.encode a b) s = .next t ∧ t.result = some (.encoded ⟨w, true⟩) ∧
      exec (.decode w) t = .next u ∧ u.result = some (.decoded d) ∧
      ((d.coef.toInt = a.toInt ∧ d.exp.toInt = b.toInt ∧ d.ok = true) ↔
        8388608 ≤ a.toInt.natAbs ∨ b.toInt < -64 ∨ -1 < b.toInt)

/-- What DECODE gives for the inputs that do not come back (R70, marked there as derived). -/
def Obligations.CollidingEncodeDecodesIntoLargeForm : Prop :=
  ∀ (s : State) (a : BitVec 32) (b : Exponent),
    a.toInt.natAbs < 8388608 → -64 ≤ b.toInt → b.toInt ≤ -1 →
    ∃ (t u : State) (w : Word) (d : DecOut 32),
      exec (.encode a b) s = .next t ∧ t.encOut = some ⟨w, true⟩ ∧
      exec (.decode w) t = .next u ∧ u.decOut = some d ∧
      d.large = true ∧ d.mag.toNat = 8388608 + a.toInt.natAbs % 2097152 ∧
      d.exp.toNat = a.toInt.natAbs / 2097152 * 64 + b.toNat % 64 ∧
      (d.sign = 1#1 ↔ a.toInt < 0) ∧
      (d.coef.toInt = if a.toInt < 0 then -(d.mag.toNat : Int) else (d.mag.toNat : Int))

/-! ### The classifier -/

/-- ISINF and ISNAN complete from every state on every word, report the combination fields `11110` and `11111` and
nothing else, and change nothing but the classifier's ports and the result (R74, R75). The rest of the next state
is the model's choice: the other units' inputs still driven (log entry 10), the caller's list as it was (log entry
1), and `result` (log entry 3). -/
def Obligations.SpecialPredicatesReadCombination : Prop :=
  ∀ (s : State) (w : Word), ∃ o : ClsOut,
    exec (.isinf w) s = .next { s with clsWord := some w, clsOut := some o, result := some (.isInf o.isInf) } ∧
    (o.isInf = true ↔ Reading.comb w = 30) ∧
    exec (.isnan w) s = .next { s with clsWord := some w, clsOut := some o, result := some (.isNan o.isNan) } ∧
    (o.isNan = true ↔ Reading.comb w = 31)

/-- ZERO completes from every state on every word and reports a magnitude of 0 or above 9,999,999 (R72, with the
unsigned reading of decision D7, log entry 5). The rest of the next state is the model's choice: the other units'
inputs still driven (log entry 10), the caller's list as it was (log entry 1), and `result` (log entry 3). -/
def Obligations.ZeroReportsMagnitude : Prop :=
  ∀ (s : State) (w : Word), ∃ o : ClsOut,
    exec (.zero w) s = .next { s with clsWord := some w, clsOut := some o, result := some (.zero o.isZero) } ∧
    (o.isZero = true ↔ Reading.mag w = 0 ∨ 9999999 < Reading.mag w)

/-- VALID completes from every state on every word and reports an exponent in [-95, 96] with a magnitude of at most
9,999,999 (R73, with the unsigned reading of decision D7, log entry 5). The rest of the next state is the model's
choice: the other units' inputs still driven (log entry 10), the caller's list as it was (log entry 1), and
`result` (log entry 3). -/
def Obligations.ValidReportsLimits : Prop :=
  ∀ (s : State) (w : Word), ∃ o : ClsOut,
    exec (.valid w) s = .next { s with clsWord := some w, clsOut := some o, result := some (.valid o.isValid) } ∧
    (o.isValid = true ↔ Reading.ExponentValid w ∧ Reading.mag w ≤ 9999999)

/-- The table R76 gives for CLASSIFY_ON_SIGNED = false (marked there as derived; that the machine runs with it false
is decision D7, log entry 5, unsafe for the is_zero and is_valid of words with sign 1), for whichever predicate
command is run: all four outputs by form, never infinity and NaN together, and zero and valid together exactly on
normal-form words of magnitude 0 with a valid exponent. -/
def Obligations.ClassifierTableByForm : Prop :=
  ∀ (s : State) (w : Word) (i : Instr), i ∈ Reading.predicates w → ∃ (t : State) (o : ClsOut),
    exec i s = .next t ∧ t.clsOut = some o ∧
    (Reading.comb w / 8 ≠ 3 → o.isInf = false ∧ o.isNan = false ∧
      (o.isZero = true ↔ Reading.mag w = 0) ∧ (o.isValid = true ↔ Reading.ExponentValid w)) ∧
    (24 ≤ Reading.comb w → Reading.comb w ≤ 29 → o.isInf = false ∧ o.isNan = false ∧
      (o.isZero = true ↔ 9999999 < Reading.mag w) ∧
      (9999999 < Reading.mag w ↔ Reading.comb w % 2 = 1 ∧ 0x89680 ≤ Reading.ccont w) ∧
      (o.isValid = true ↔ Reading.mag w ≤ 9999999 ∧ Reading.ExponentValid w)) ∧
    (Reading.comb w = 30 → o = ⟨false, true, true, false⟩) ∧
    (Reading.comb w = 31 → o.isInf = false ∧ o.isNan = true ∧
      (o.isZero = true ↔ 0x89680 ≤ Reading.ccont w) ∧ (o.isValid = true ↔ Reading.ccont w ≤ 0x8967F)) ∧
    ¬ (o.isInf = true ∧ o.isNan = true) ∧
    (o.isZero = true ∧ o.isValid = true ↔ Reading.comb w / 8 ≠ 3 ∧ Reading.mag w = 0 ∧ Reading.ExponentValid w)

/-- With CLASSIFY_ON_SIGNED false (decision D7, log entry 5) no predicate reads the sign bit, and ISINF and ISNAN read
it under neither value of `CLASSIFY_ON_SIGNED` (R77, marked there as derived). The result is read through
`result`, the model's own field (log entry 3). -/
def Obligations.ClassifierIgnoresSign : Prop :=
  (∀ (s : State) (w : Word), ∀ f ∈ [Instr.zero, Instr.valid, Instr.isinf, Instr.isnan],
    ∃ t t' : State, exec (f w) s = .next t ∧ exec (f (w ^^^ 0x80000000#32)) s = .next t' ∧
      t'.clsOut = t.clsOut ∧ t'.result = t.result) ∧
  (∀ (w : Word) (onSigned : Bool),
    (classifierUnit 32 onSigned (w ^^^ 0x80000000#32)).isInf = (classifierUnit 32 onSigned w).isInf ∧
    (classifierUnit 32 onSigned (w ^^^ 0x80000000#32)).isNan = (classifierUnit 32 onSigned w).isNan)

/-- The other reading of "decoded coefficient" (R78, decision D7, log entry 5): with `CLASSIFY_ON_SIGNED` true a
negative non-canonical word is not zero, a word with sign 1 and non-zero magnitude is not valid, every other
output is as with it false, and the machine runs with it false. -/
def Obligations.SignedReadingOfPredicates : Prop :=
  ∀ (s : State) (w : Word),
    (∃ t : State, exec (.zero w) s = .next t ∧ t.clsOut = some (classifierUnit 32 false w)) ∧
    (Reading.sign w = 0 → classifierUnit 32 true w = classifierUnit 32 false w) ∧
    (Reading.sign w = 1 → 9999999 < Reading.mag w → (classifierUnit 32 true w).isZero = false) ∧
    (Reading.sign w = 1 → Reading.mag w ≤ 9999999 →
      (classifierUnit 32 true w).isZero = (classifierUnit 32 false w).isZero) ∧
    (Reading.sign w = 1 → Reading.mag w ≠ 0 → (classifierUnit 32 true w).isValid = false) ∧
    (Reading.sign w = 1 → Reading.mag w = 0 →
      (classifierUnit 32 true w).isValid = (classifierUnit 32 false w).isValid)

/-- Exactly one row of the match/mask table covers each word, and the row's form is the one the combination field says
(R37, marked there as derived). -/
def Obligations.WordMatchesExactlyOneFormRow : Prop :=
  ∀ w : Word, ∃ r ∈ formTable, r.covers w = true ∧ (∀ r' ∈ formTable, r'.covers w = true → r' = r) ∧
    (r.form = .normal ↔ Reading.comb w / 8 ≠ 3) ∧
    (r.form = .largeFinite ↔ 24 ≤ Reading.comb w ∧ Reading.comb w ≤ 29) ∧
    (r.form = .infinity ↔ Reading.comb w = 30) ∧
    (r.form = .nan ↔ Reading.comb w = 31)

/-! ### The whole machine -/

/-- Every step keeps every unit's outputs the unit's function of its inputs (R13), unknown while an input is undriven
(R88), and the result what its command reads (log entry 3). Unknown as `none` is log entry 2, and both encoder
outputs unknown while one input is undriven is the model's choice (log entry 12). The step's list of commands is
log entry 1. -/
def Obligations.StepKeepsInvariant : Prop :=
  ∀ s t : State, s.Inv → step s = .next t → t.Inv

/-- What a command answers depends on the command alone: two states that differ in everything but the command
presented agree on the result and on the evaluated unit's ports (R29; R18, marked there as derived). The result is
read through `result`, the model's own field (log entry 3). The list the command is presented from is the model's
choice (log entry 1). -/
def Obligations.OutputsDependOnlyOnCommand : Prop :=
  ∀ (s s' t : State) (c : Command) (rest rest' : List Command),
    s.pending = c :: rest → s'.pending = c :: rest' → step s = .next t →
    ∃ t' : State, step s' = .next t' ∧ t'.result = t.result ∧
      (c.toNat / 2 ^ 40 = 0 → t'.encCoef = t.encCoef ∧ t'.encExp = t.encExp ∧ t'.encOut = t.encOut) ∧
      (c.toNat / 2 ^ 40 = 1 → t'.decWord = t.decWord ∧ t'.decOut = t.decOut) ∧
      (2 ≤ c.toNat / 2 ^ 40 → t'.clsWord = t.clsWord ∧ t'.clsOut = t.clsOut)

/-- "Repeating an evaluation is idempotent" (R27, marked there as derived). That the two end states agree on the
caller's list and on the result as well rests on log entries 1 and 3. -/
def Obligations.RepeatingEvaluationIsIdempotent : Prop :=
  ∀ (i : Instr) (s t : State), exec i s = .next t → exec i t = .next t

/-- Evaluations of different units may be made in either order: only which result was read last differs. R29 and R86
say this of outputs; that the two end states agree on the INPUT ports too holds because the first unit's inputs
stay driven while the other command runs, the model's choice (log entry 10). The caller's list and the result, in
which alone the orders differ, are the model's own fields (log entries 1 and 3). -/
def Obligations.EvaluationsOfDifferentUnitsCommute : Prop :=
  ∀ (i j : Instr) (s : State), Reading.unitOf i ≠ Reading.unitOf j →
    ∃ t u t' u' : State, exec i s = .next t ∧ exec j t = .next u ∧ exec j s = .next t' ∧ exec i t' = .next u' ∧
      { u with result := none } = { u' with result := none }

/-- A caller that ties `dec_word` and `cls_word` to one word gets what DECODE and a predicate give for it (R21,
decision D18). It holds because `dec_word` stays driven while the predicate command runs, which R21 and D18 do not
say and which is the model's choice (log entry 10). The caller's list, left as it was, and the result, left out of
the comparison, are the model's own fields (log entries 1 and 3). -/
def Obligations.TiedInputsGiveBothResults : Prop :=
  ∀ (s : State) (w : Word) (i : Instr), i ∈ Reading.predicates w →
    ∃ t u : State, exec (.decode w) s = .next t ∧ exec i t = .next u ∧
      { u with result := s.result } = s.setTied (some w)

/-- The assembler accepts exactly the operands that fit their fields, writes `a` and `b` as R44 says and 0 in an
ignored `b`, and takes a name as the value a caller bound to it (R44, decision D11; log entry 13). -/
def Obligations.AssemblerFitsOperandsToFields : Prop :=
  (∀ (names : Names) (c e : Int),
    (coefFits c ∧ expFits e → ∃ cmd, assemble names (.encode c e) = some cmd ∧
      cmd.toNat = (e % 256).toNat * 2 ^ 32 + (c % 2 ^ 32).toNat) ∧
    (¬ (coefFits c ∧ expFits e) → assemble names (.encode c e) = none)) ∧
  (∀ (names : Names) (p : (WordOperand → Asm) × Nat),
    p ∈ [(Asm.decode, 1), (Asm.zero, 2), (Asm.valid, 3), (Asm.isinf, 4), (Asm.isnan, 5)] → ∀ (v : Nat) (n : String),
      (v < 2 ^ 32 → ∃ cmd, assemble names (p.1 (.value v)) = some cmd ∧ cmd.toNat = p.2 * 2 ^ 40 + v) ∧
      (2 ^ 32 ≤ v → assemble names (p.1 (.value v)) = none) ∧
      (names.value n = some v → assemble names (p.1 (.name n)) = assemble names (p.1 (.value v))) ∧
      (names.value n = none → assemble names (p.1 (.name n)) = none))

/-! ### What the rules say of the outputs alone

These say nothing of the rest of the state, so they rest on none of log entries 1, 3 and 10. -/

/-- A failed encode answers the sentinel and the flag 0, from every state: there is no third kind of answer, and every
failing input gives it (R48). Of the one input whose failing is decision D4 (log entry 7), a coefficient of -2^31
with an exponent in range, this says only that it either fails so or succeeds. -/
def Obligations.FailedEncodeAnswersSentinel : Prop :=
  ∀ (s : State) (a : BitVec 32) (b : Exponent), ∃ (t : State) (o : EncOut),
    exec (.encode a b) s = .next t ∧ t.encOut = some o ∧
    (o.ok = false → o.word = 0xFFFFFFFF#32) ∧
    (a.toInt ≠ -2147483648 ∧ 9999999 < a.toInt.natAbs ∨ b.toInt < -95 ∨ 96 < b.toInt →
      o.word = 0xFFFFFFFF#32 ∧ o.ok = false)

/-- The sign of every successful encode (R49), and the three other fields of the word of a normal-form one, which R52
says of magnitudes with bit 23 clear. Which inputs succeed is EncodeSucceedsExactlyInRange. -/
def Obligations.EncodedSignAndNormalFormFields : Prop :=
  ∀ (s : State) (a : BitVec 32) (b : Exponent), ∃ (t : State) (o : EncOut),
    exec (.encode a b) s = .next t ∧ t.encOut = some o ∧
    (o.ok = true →
      (Reading.sign o.word = 1 ↔ a.toInt < 0) ∧
      (a.toInt.natAbs < 8388608 →
        Reading.comb o.word = Reading.storedOf b.toInt / 64 * 8 + a.toInt.natAbs / 1048576 ∧
        Reading.econt o.word = Reading.storedOf b.toInt % 64 ∧
        Reading.ccont o.word = a.toInt.natAbs % 1048576))

/-- DECODE's outputs against one another, from every state: the form is the combination field's top two bits (R62),
the magnitude and the stored exponent are those fields put together as the form says (R63, R64), and it succeeds
(R68). -/
def Obligations.DecodeAssemblesItsFields : Prop :=
  ∀ (s : State) (w : Word), ∃ (t : State) (d : DecOut 32), exec (.decode w) s = .next t ∧ t.decOut = some d ∧
    (d.large = true ↔ d.comb.toNat / 8 = 3) ∧
    (d.large = false →
      d.mag.toNat = d.comb.toNat % 8 * 1048576 + d.ccont.toNat ∧
      d.exp.toNat = d.comb.toNat / 8 * 64 + d.econt.toNat) ∧
    (d.large = true →
      d.mag.toNat = 8388608 + 1048576 * (d.comb.toNat % 2) + d.ccont.toNat ∧
      d.exp.toNat = d.comb.toNat / 2 % 4 * 64 + d.econt.toNat) ∧
    d.ok = true
end

