-- ==== Sys2Proof/Laws/Bits.lean ====
section
/-! SUPPORT. The word's fields, and what is assembled from them or packed into them, as plain numbers. After these, a
claim about bits is arithmetic. -/

namespace Sys2Proof.Machine

/-- Concatenation as arithmetic (R10). -/
theorem append_toNat {n m : Nat} (x : BitVec n) (y : BitVec m) : (x ++ y).toNat = x.toNat * 2 ^ m + y.toNat := by
  rw [BitVec.toNat_append, ← Nat.shiftLeft_add_eq_or_of_lt y.isLt, Nat.shiftLeft_eq]

/-- A field `v[hi:lo]` as arithmetic (R9). -/
theorem field_toNat {n : Nat} (hi lo : Nat) (x : BitVec n) :
    (x.extractLsb hi lo).toNat = x.toNat / 2 ^ lo % 2 ^ (hi - lo + 1) := by
  simp [BitVec.extractLsb_toNat, Nat.shiftRight_eq_div_pow]

theorem signField_toNat (w : Word) : (signField w).toNat = w.toNat / 2147483648 := by
  have := w.isLt
  rw [signField, field_toNat]
  omega

theorem combField_toNat (w : Word) : (combField w).toNat = w.toNat / 67108864 % 32 := field_toNat 30 26 w

theorem econtField_toNat (w : Word) : (econtField w).toNat = w.toNat / 1048576 % 64 := field_toNat 25 20 w

theorem ccontField_toNat (w : Word) : (ccontField w).toNat = w.toNat % 1048576 := by
  rw [ccontField, field_toNat]
  omega

theorem isLargeComb_iff (comb : BitVec 5) : isLargeComb comb = true ↔ comb.toNat / 8 = 3 := by
  have := comb.isLt
  rw [isLargeComb, beq_iff_eq, ← BitVec.toNat_inj, field_toNat]
  simp only [BitVec.toNat_ofNat]
  omega

theorem isLargeComb_eq (comb : BitVec 5) : isLargeComb comb = decide (comb.toNat / 8 = 3) := by
  rw [Bool.eq_iff_iff, isLargeComb_iff, decide_eq_true_iff]

theorem assembleMag_toNat (comb : BitVec 5) (ccont : BitVec 20) :
    (assembleMag comb ccont).toNat =
      if comb.toNat / 8 = 3 then 8388608 + comb.toNat % 2 * 1048576 + ccont.toNat
      else comb.toNat % 8 * 1048576 + ccont.toNat := by
  unfold assembleMag
  rw [isLargeComb_eq]
  by_cases h : comb.toNat / 8 = 3
  · rw [if_pos (decide_eq_true h), if_pos h, append_toNat, append_toNat, field_toNat]
    simp
    omega
  · rw [if_neg (by simpa using h), if_neg h, append_toNat, append_toNat, field_toNat]
    simp

theorem assembleExp_toNat (comb : BitVec 5) (econt : BitVec 6) :
    (assembleExp comb econt).toNat =
      if comb.toNat / 8 = 3 then comb.toNat / 2 % 4 * 64 + econt.toNat else comb.toNat / 8 * 64 + econt.toNat := by
  have hc := comb.isLt
  unfold assembleExp
  rw [isLargeComb_eq]
  by_cases h : comb.toNat / 8 = 3
  · rw [if_pos (decide_eq_true h), if_pos h, append_toNat, field_toNat]
    simp
  · rw [if_neg (by simpa using h), if_neg h, append_toNat, field_toNat]
    simp
    omega

theorem signOf_toNat (c : Int) : (signOf c).toNat = if c < 0 then 1 else 0 := by
  unfold signOf
  split <;> rfl

theorem magOf_toNat {c : Int} (h : c.natAbs ≤ 9999999) : (magOf c).toNat = c.natAbs := by
  rw [magOf, BitVec.toNat_ofNat]
  omega

/-- The stored exponent of an 8-bit port value is that value (R50, R65). -/
@[simp] theorem storedExpOf_eq (b : Exponent) : storedExpOf b.toInt = b := by
  simp [storedExpOf]

theorem packComb_toNat (m : Magnitude) (se : Exponent) :
    (packComb m se).toNat =
      if m.toNat / 8388608 = 1 then 24 + se.toNat / 64 * 2 + m.toNat / 1048576 % 2
      else se.toNat / 64 * 8 + m.toNat / 1048576 % 8 := by
  have hm := m.isLt
  have hs := se.isLt
  have hbit : m.extractLsb 23 23 = 1#1 ↔ m.toNat / 8388608 = 1 := by
    rw [← BitVec.toNat_inj, field_toNat]
    simp only [BitVec.toNat_ofNat]
    omega
  unfold packComb
  by_cases h : m.toNat / 8388608 = 1
  · rw [if_pos (hbit.2 h), if_pos h, append_toNat, append_toNat, field_toNat, field_toNat]
    simp
    omega
  · rw [if_neg (fun k => h (hbit.1 k)), if_neg h, append_toNat, field_toNat, field_toNat]
    simp
    omega

theorem packWord_toNat (s : BitVec 1) (m : Magnitude) (se : Exponent) :
    (packWord s m se).toNat =
      s.toNat * 2147483648 + (packComb m se).toNat * 67108864 + se.toNat % 64 * 1048576 + m.toNat % 1048576 := by
  unfold packWord
  rw [append_toNat, append_toNat, append_toNat, field_toNat, field_toNat]
  simp
  omega

/-- The fields of a packed word are what was packed (R54 against R61). -/
theorem signField_packWord (s : BitVec 1) (m : Magnitude) (se : Exponent) :
    (signField (packWord s m se)).toNat = s.toNat := by
  have := (packComb m se).isLt
  rw [signField_toNat, packWord_toNat]
  omega

theorem combField_packWord (s : BitVec 1) (m : Magnitude) (se : Exponent) :
    (combField (packWord s m se)).toNat = (packComb m se).toNat := by
  have := (packComb m se).isLt
  rw [combField_toNat, packWord_toNat]
  omega

theorem econtField_packWord (s : BitVec 1) (m : Magnitude) (se : Exponent) :
    (econtField (packWord s m se)).toNat = se.toNat % 64 := by
  have := (packComb m se).isLt
  rw [econtField_toNat, packWord_toNat]
  omega

theorem ccontField_packWord (s : BitVec 1) (m : Magnitude) (se : Exponent) :
    (ccontField (packWord s m se)).toNat = m.toNat % 1048576 := by
  rw [ccontField_toNat, packWord_toNat]
  omega

/-- The sign of an integer, folded back over its absolute value, is the integer (R49, R66). -/
theorem foldSign_eq (s : BitVec 1) (m : Magnitude) :
    foldSign s m = if s.toNat = 1 then -(m.toNat : Int) else (m.toNat : Int) := by
  have : s = 1#1 ↔ s.toNat = 1 := by rw [← BitVec.toNat_inj]; simp
  unfold foldSign
  simp only [this]

/-- Flipping the sign bit as arithmetic (R77). -/
theorem flipSign_toNat (w : Word) :
    (w ^^^ 0x80000000#32).toNat =
      if w.toNat < 2147483648 then w.toNat + 2147483648 else w.toNat - 2147483648 := by
  rw [BitVec.toNat_xor, show (0x80000000#32).toNat = 2147483648 from rfl]
  have low := Nat.xor_mod_two_pow (a := w.toNat) (b := 2147483648) (n := 31)
  have high := Nat.xor_div_two_pow (a := w.toNat) (b := 2147483648) (n := 31)
  norm_num at low high
  have hw := w.isLt
  have : w.toNat / 2147483648 = 0 ∨ w.toNat / 2147483648 = 1 := by omega
  rcases this with k | k <;> rw [k] at high <;> norm_num at high <;> split <;> omega

/-- A mask over bits 26 and up reads those bits only (R37). -/
theorem maskHigh (x m : Nat) : (x &&& m * 67108864) = (x / 67108864 &&& m) * 67108864 := by
  have low := Nat.and_mod_two_pow (a := x) (b := m * 67108864) (n := 26)
  have high := Nat.and_div_two_pow (a := x) (b := m * 67108864) (n := 26)
  norm_num at low high
  omega

/-- A two's-complement byte as arithmetic. -/
theorem exponent_toInt (b : Exponent) : b.toInt = if b.toNat < 128 then (b.toNat : Int) else (b.toNat : Int) - 256 := by
  rw [BitVec.toInt_eq_toNat_cond]
  split <;> split <;> omega

end Sys2Proof.Machine
end

