-- ==== Sys2Proof/Laws/Command.lean ====
section
/-! SUPPORT. The command word's fields as numbers, and when the decoder accepts. -/

namespace Sys2Proof

open Sys2Proof.Machine (append_toNat field_toNat)

theorem commandOp_toNat (c : Command) : (commandOp c).toNat = c.toNat / 1099511627776 := by
  have := c.isLt
  rw [commandOp, field_toNat]
  omega

theorem commandB_toNat (c : Command) : (commandB c).toNat = c.toNat / 4294967296 % 256 := field_toNat 39 32 c

theorem commandA_toNat (c : Command) : (commandA c).toNat = c.toNat % 4294967296 := by
  rw [commandA, field_toNat]
  omega

theorem commandWord_toNat (op : BitVec 3) (b : Exponent) (a : BitVec 32) :
    (commandWord op b a).toNat = op.toNat * 1099511627776 + b.toNat * 4294967296 + a.toNat := by
  rw [commandWord, append_toNat, append_toNat]
  simp
  omega

section Fields
variable (op : BitVec 3) (b : Exponent) (a : BitVec 32)

@[simp] theorem commandOp_commandWord : commandOp (commandWord op b a) = op := by
  have hb := b.isLt
  have ha := a.isLt
  apply BitVec.eq_of_toNat_eq
  rw [commandOp_toNat, commandWord_toNat]
  omega

@[simp] theorem commandB_commandWord : commandB (commandWord op b a) = b := by
  have hb := b.isLt
  have ha := a.isLt
  apply BitVec.eq_of_toNat_eq
  rw [commandB_toNat, commandWord_toNat]
  omega

@[simp] theorem commandA_commandWord : commandA (commandWord op b a) = a := by
  have ha := a.isLt
  apply BitVec.eq_of_toNat_eq
  rw [commandA_toNat, commandWord_toNat]
  omega

end Fields

/-- A command word is its three fields. -/
theorem commandWord_fields (c : Command) : commandWord (commandOp c) (commandB c) (commandA c) = c := by
  apply BitVec.eq_of_toNat_eq
  rw [commandWord_toNat, commandOp_toNat, commandB_toNat, commandA_toNat]
  omega

/-- Everything the decoder can answer. -/
theorem decode_cases (c : Command) :
    (commandOp c = 0b000#3 ∧ decode c = .instr (.encode (commandA c) (commandB c))) ∨
      (commandOp c = 0b001#3 ∧ decode c = .instr (.decode (commandA c))) ∨
        (commandOp c = 0b010#3 ∧ decode c = .instr (.zero (commandA c))) ∨
          (commandOp c = 0b011#3 ∧ decode c = .instr (.valid (commandA c))) ∨
            (commandOp c = 0b100#3 ∧ decode c = .instr (.isinf (commandA c))) ∨
              (commandOp c = 0b101#3 ∧ decode c = .instr (.isnan (commandA c))) ∨
                ((commandOp c = 0b110#3 ∨ commandOp c = 0b111#3) ∧ decode c = .reservedOp (commandOp c)) := by
  have h : ∀ op : BitVec 3, op = 0b000#3 ∨ op = 0b001#3 ∨ op = 0b010#3 ∨ op = 0b011#3 ∨ op = 0b100#3 ∨ op = 0b101#3 ∨
      op = 0b110#3 ∨ op = 0b111#3 := by decide
  rcases h (commandOp c) with h | h | h | h | h | h | h | h <;> simp [decode, h]

/-- The decoder accepts exactly the words whose `op` is not reserved (R43). -/
theorem decode_accepts_iff (c : Command) : (∃ i, decode c = .instr i) ↔ Command.wellFormed c = true := by
  show _ ↔ (commandOp c != 0b110#3 && commandOp c != 0b111#3) = true
  rcases decode_cases c with h | h | h | h | h | h | ⟨h | h, k⟩
  all_goals simp_all

end Sys2Proof
end

