-- ==== Sys2Proof/Laws/State.lean ====
section
/-! SUPPORT. What each operation on State does to each field, once, so that no later proof unfolds a record update. -/

namespace Sys2Proof.Machine

section SetEncoder
variable (c : Option (BitVec Config.coefInW)) (e : Option Exponent) (s : State)

@[simp] theorem setEncoder_pending : (s.setEncoder c e).pending = s.pending := rfl
@[simp] theorem setEncoder_encCoef : (s.setEncoder c e).encCoef = c := rfl
@[simp] theorem setEncoder_encExp : (s.setEncoder c e).encExp = e := rfl
@[simp] theorem setEncoder_encOut : (s.setEncoder c e).encOut = encoderOutputs c e := rfl
@[simp] theorem setEncoder_decWord : (s.setEncoder c e).decWord = s.decWord := rfl
@[simp] theorem setEncoder_decOut : (s.setEncoder c e).decOut = s.decOut := rfl
@[simp] theorem setEncoder_clsWord : (s.setEncoder c e).clsWord = s.clsWord := rfl
@[simp] theorem setEncoder_clsOut : (s.setEncoder c e).clsOut = s.clsOut := rfl
@[simp] theorem setEncoder_result : (s.setEncoder c e).result = s.result := rfl

end SetEncoder

section SetWord
variable (w : Option Word) (s : State)

@[simp] theorem setDecoder_pending : (s.setDecoder w).pending = s.pending := rfl
@[simp] theorem setDecoder_encCoef : (s.setDecoder w).encCoef = s.encCoef := rfl
@[simp] theorem setDecoder_encExp : (s.setDecoder w).encExp = s.encExp := rfl
@[simp] theorem setDecoder_encOut : (s.setDecoder w).encOut = s.encOut := rfl
@[simp] theorem setDecoder_decWord : (s.setDecoder w).decWord = w := rfl
@[simp] theorem setDecoder_decOut : (s.setDecoder w).decOut = decoderOutputs w := rfl
@[simp] theorem setDecoder_clsWord : (s.setDecoder w).clsWord = s.clsWord := rfl
@[simp] theorem setDecoder_clsOut : (s.setDecoder w).clsOut = s.clsOut := rfl
@[simp] theorem setDecoder_result : (s.setDecoder w).result = s.result := rfl

@[simp] theorem setClassifier_pending : (s.setClassifier w).pending = s.pending := rfl
@[simp] theorem setClassifier_encCoef : (s.setClassifier w).encCoef = s.encCoef := rfl
@[simp] theorem setClassifier_encExp : (s.setClassifier w).encExp = s.encExp := rfl
@[simp] theorem setClassifier_encOut : (s.setClassifier w).encOut = s.encOut := rfl
@[simp] theorem setClassifier_decWord : (s.setClassifier w).decWord = s.decWord := rfl
@[simp] theorem setClassifier_decOut : (s.setClassifier w).decOut = s.decOut := rfl
@[simp] theorem setClassifier_clsWord : (s.setClassifier w).clsWord = w := rfl
@[simp] theorem setClassifier_clsOut : (s.setClassifier w).clsOut = classifierOutputs w := rfl
@[simp] theorem setClassifier_result : (s.setClassifier w).result = s.result := rfl

end SetWord

section ReadResult
variable (sel : Select) (s : State)

@[simp] theorem readResult_pending : (s.readResult sel).pending = s.pending := rfl
@[simp] theorem readResult_encCoef : (s.readResult sel).encCoef = s.encCoef := rfl
@[simp] theorem readResult_encExp : (s.readResult sel).encExp = s.encExp := rfl
@[simp] theorem readResult_encOut : (s.readResult sel).encOut = s.encOut := rfl
@[simp] theorem readResult_decWord : (s.readResult sel).decWord = s.decWord := rfl
@[simp] theorem readResult_decOut : (s.readResult sel).decOut = s.decOut := rfl
@[simp] theorem readResult_clsWord : (s.readResult sel).clsWord = s.clsWord := rfl
@[simp] theorem readResult_clsOut : (s.readResult sel).clsOut = s.clsOut := rfl
@[simp] theorem readResult_result : (s.readResult sel).result = s.selected sel := rfl

end ReadResult

/-- Reading a result does not change what any selection reads (R17: nothing reads a result back). -/
@[simp] theorem selected_readResult (sel sel' : Select) (s : State) :
    (s.readResult sel').selected sel = s.selected sel := rfl

@[simp] theorem encoderOutputs_driven (c : BitVec Config.coefInW) (e : Exponent) :
    encoderOutputs (some c) (some e) = some (encoderUnit c e) := rfl

@[simp] theorem decoderOutputs_driven (w : Word) : decoderOutputs (some w) = some (decoderUnit Config.dcoefW w) := rfl

@[simp] theorem classifierOutputs_driven (w : Word) :
    classifierOutputs (some w) = some (classifierUnit Config.dcoefW Config.classifyOnSigned w) := rfl

/-- A command's coefficient operand reaches a 32-bit port unchanged (R41: "With `COEF_IN_W` = 32, `enc_coef = a`"). -/
@[simp] theorem coefOfOperand_eq (a : BitVec 32) : coefOfOperand a = a := BitVec.signExtend_eq a

@[simp] theorem fetch_nil {s : State} (h : s.pending = []) : s.fetch = none := by simp [State.fetch, h]

@[simp] theorem fetch_cons {s : State} {c : Command} {rest : List Command} (h : s.pending = c :: rest) :
    s.fetch = some (c, { s with pending := rest }) := by simp [State.fetch, h]

@[simp] theorem placeCommand_pending (c : Command) (s : State) : (s.placeCommand c).pending = c :: s.pending.tail := rfl

/-- Everything `fetch` can do. -/
theorem fetch_eq_some {s s' : State} {c : Command} (h : s.fetch = some (c, s')) :
    ∃ rest, s.pending = c :: rest ∧ s' = { s with pending := rest } := by
  unfold State.fetch at h
  split at h
  · cases h
  · cases h
    exact ⟨_, ‹_›, rfl⟩

/-- Setting a unit's ports keeps every unit settled, whatever is put on them (R13, R86, R88). -/
theorem setEncoder_settled {s : State} (h : s.PortsSettled) (c : Option (BitVec Config.coefInW)) (e : Option Exponent) :
    (s.setEncoder c e).PortsSettled := ⟨rfl, h.2.1, h.2.2⟩

theorem setDecoder_settled {s : State} (h : s.PortsSettled) (w : Option Word) : (s.setDecoder w).PortsSettled :=
  ⟨h.1, rfl, h.2.2⟩

theorem setClassifier_settled {s : State} (h : s.PortsSettled) (w : Option Word) : (s.setClassifier w).PortsSettled :=
  ⟨h.1, h.2.1, rfl⟩

theorem setTied_settled {s : State} (h : s.PortsSettled) (w : Option Word) : (s.setTied w).PortsSettled :=
  setClassifier_settled (setDecoder_settled h w) w

end Sys2Proof.Machine
end

