-- ==== Sys2Proof/Laws/Exec.lean ====
section
/-! SUPPORT. Each command's next state in one equation, and everything one step can do. -/

namespace Sys2Proof.Machine

theorem exec_encode (a : BitVec 32) (b : Exponent) (s : State) :
    exec (.encode a b) s = .next { s with
      encCoef := some a
      encExp := some b
      encOut := some (encoderUnit a b)
      result := some (.encoded (encoderUnit a b)) } := by
  show Host.Outcome.next ((s.setEncoder (some (coefOfOperand a)) (some b)).readResult .encoder) = _
  rw [coefOfOperand_eq]
  rfl

theorem exec_decode (w : Word) (s : State) :
    exec (.decode w) s = .next { s with
      decWord := some w
      decOut := some (decoderUnit 32 w)
      result := some (.decoded (decoderUnit 32 w)) } := rfl

theorem exec_zero (w : Word) (s : State) :
    exec (.zero w) s = .next { s with
      clsWord := some w
      clsOut := some (classifierUnit 32 false w)
      result := some (.zero (classifierUnit 32 false w).isZero) } := rfl

theorem exec_valid (w : Word) (s : State) :
    exec (.valid w) s = .next { s with
      clsWord := some w
      clsOut := some (classifierUnit 32 false w)
      result := some (.valid (classifierUnit 32 false w).isValid) } := rfl

theorem exec_isinf (w : Word) (s : State) :
    exec (.isinf w) s = .next { s with
      clsWord := some w
      clsOut := some (classifierUnit 32 false w)
      result := some (.isInf (classifierUnit 32 false w).isInf) } := rfl

theorem exec_isnan (w : Word) (s : State) :
    exec (.isnan w) s = .next { s with
      clsWord := some w
      clsOut := some (classifierUnit 32 false w)
      result := some (.isNan (classifierUnit 32 false w).isNan) } := rfl

/-- Everything a step that goes on can do: it presents the head of the caller's list and evaluates what it spells. -/
theorem step_next_cases {s t : State} (h : step s = .next t) :
    ∃ c rest i, s.pending = c :: rest ∧ decode c = .instr i ∧ exec i { s with pending := rest } = .next t := by
  unfold step at h
  split at h
  · cases h
  · rename_i c s' hf
    obtain ⟨rest, hp, rfl⟩ := fetch_eq_some hf
    split at h
    · exact ⟨c, rest, _, hp, ‹_›, h⟩
    · cases h

end Sys2Proof.Machine
end

