-- ==== Sys2Proof/Laws/PerInstr.lean ====
section
/-! SUPPORT. Statements made of every instruction, one lemma per constructor. -/

namespace Sys2Proof.Laws.MatchesItsTableRow

/-- The `match` value of the instruction's row in spec/opcode_table.json. -/
def rowMatch : Instr → Nat
  | .encode _ _ => 0x0
  | .decode _ => 0x10000000000
  | .zero _ => 0x20000000000
  | .valid _ => 0x30000000000
  | .isinf _ => 0x40000000000
  | .isnan _ => 0x50000000000

/-- The encoded word lies in the instruction's own row of the table: its bits 42 to 40, the row's mask 0x70000000000,
are the row's. -/
def Statement (i : Instr) : Prop := (encode i).toNat / 0x10000000000 * 0x10000000000 = rowMatch i

theorem row_of_commandWord (op : BitVec 3) (b : Exponent) (a : BitVec 32) :
    (commandWord op b a).toNat / 0x10000000000 * 0x10000000000 = op.toNat * 0x10000000000 := by
  rw [← commandOp_toNat, commandOp_commandWord]

theorem encode (coef : BitVec 32) (exp : Exponent) : Statement (.encode coef exp) := by
  simp [Statement, Sys2Proof.encode, row_of_commandWord, rowMatch]
theorem decode (w : Word) : Statement (.decode w) := by
  simp [Statement, Sys2Proof.encode, row_of_commandWord, rowMatch]
theorem zero (w : Word) : Statement (.zero w) := by
  simp [Statement, Sys2Proof.encode, row_of_commandWord, rowMatch]
theorem valid (w : Word) : Statement (.valid w) := by
  simp [Statement, Sys2Proof.encode, row_of_commandWord, rowMatch]
theorem isinf (w : Word) : Statement (.isinf w) := by
  simp [Statement, Sys2Proof.encode, row_of_commandWord, rowMatch]
theorem isnan (w : Word) : Statement (.isnan w) := by
  simp [Statement, Sys2Proof.encode, row_of_commandWord, rowMatch]

end Sys2Proof.Laws.MatchesItsTableRow
end

