-- ==== Sys2Proof/Laws/Units.lean ====
section
/-! SUPPORT. What each unit answers, once: the lemmas a proof about a command cites instead of unfolding the unit. -/

namespace Sys2Proof.Machine

theorem outOfRange_iff (c e : Int) : outOfRange c e = true ↔ 9999999 < c.natAbs ∨ e < -95 ∨ 96 < e := by
  unfold outOfRange
  simp only [Bool.or_eq_true, decide_eq_true_eq]
  exact or_assoc

theorem outOfRange_eq_false (c e : Int) : outOfRange c e = false ↔ c.natAbs ≤ 9999999 ∧ -95 ≤ e ∧ e ≤ 96 := by
  rw [← Bool.not_eq_true, outOfRange_iff]
  omega

section Encoder
variable {n : Nat} (x : BitVec n) (b : Exponent)

/-- A failed encode is the sentinel and nothing of the inputs (R48). -/
theorem encoderUnit_fails (h : 9999999 < x.toInt.natAbs ∨ b.toInt < -95 ∨ 96 < b.toInt) :
    encoderUnit x b = ⟨Config.failWord, false⟩ := by
  unfold encoderUnit
  rw [if_pos ((outOfRange_iff _ _).2 h)]

/-- A successful encode packs sign, magnitude and exponent (R54). -/
theorem encoderUnit_succeeds (h : x.toInt.natAbs ≤ 9999999 ∧ -95 ≤ b.toInt ∧ b.toInt ≤ 96) :
    encoderUnit x b = ⟨packWord (signOf x.toInt) (magOf x.toInt) b, true⟩ := by
  unfold encoderUnit
  rw [if_neg (by rw [(outOfRange_eq_false _ _).2 h]; exact Bool.false_ne_true), storedExpOf_eq]

end Encoder

section Decoder
variable (d : Nat) (w : Word)

@[simp] theorem decoderUnit_sign : (decoderUnit d w).sign = signField w := rfl
@[simp] theorem decoderUnit_comb : (decoderUnit d w).comb = combField w := rfl
@[simp] theorem decoderUnit_econt : (decoderUnit d w).econt = econtField w := rfl
@[simp] theorem decoderUnit_ccont : (decoderUnit d w).ccont = ccontField w := rfl
@[simp] theorem decoderUnit_large : (decoderUnit d w).large = isLargeComb (combField w) := rfl
@[simp] theorem decoderUnit_mag : (decoderUnit d w).mag = assembleMag (combField w) (ccontField w) := rfl
@[simp] theorem decoderUnit_exp : (decoderUnit d w).exp = assembleExp (combField w) (econtField w) := rfl
@[simp] theorem decoderUnit_ok : (decoderUnit d w).ok = true := rfl

theorem decoderUnit_coef :
    (decoderUnit d w).coef = BitVec.ofInt d (foldSign (signField w) (assembleMag (combField w) (ccontField w))) := rfl

/-- A magnitude is at most 10,485,759 (R69). -/
theorem assembleMag_le (comb : BitVec 5) (ccont : BitVec 20) : (assembleMag comb ccont).toNat ≤ 10485759 := by
  have hc := comb.isLt
  have hk := ccont.isLt
  rw [assembleMag_toNat]
  split <;> omega

/-- An integer that fits a width is read back from its pattern. -/
theorem toInt_ofInt_of_fits {d : Nat} {v : Int} (hd : 25 ≤ d) (h : -10485759 ≤ v ∧ v ≤ 10485759) :
    (BitVec.ofInt d v).toInt = v := by
  have hp : (2 : Int) ^ 25 ≤ 2 ^ d := pow_le_pow_right₀ (by omega) hd
  rw [BitVec.toInt_ofInt]
  apply Int.bmod_eq_of_le
  · push_cast
    omega
  · push_cast
    omega

/-- The signed coefficient is exact at every width of at least 25 bits (R66, R8). -/
theorem decoderUnit_coef_toInt (hd : 25 ≤ d) :
    (decoderUnit d w).coef.toInt = foldSign (signField w) (assembleMag (combField w) (ccontField w)) := by
  have := assembleMag_le (combField w) (ccontField w)
  rw [decoderUnit_coef, toInt_ofInt_of_fits hd]
  rw [foldSign_eq]
  split <;> omega

end Decoder

section Classifier
variable (d : Nat) (onSigned : Bool) (w : Word)

theorem zeroFlag_iff (v : Int) : zeroFlag v = true ↔ v = 0 ∨ 9999999 < v := by
  unfold zeroFlag
  simp only [Bool.or_eq_true, decide_eq_true_eq]
  exact Iff.rfl

theorem validFlag_iff (ok : Bool) (e v : Int) :
    validFlag ok e v = true ↔ ok = true ∧ (-95 ≤ e ∧ e ≤ 96) ∧ 0 ≤ v ∧ v ≤ 9999999 := by
  unfold validFlag
  simp only [Bool.and_eq_true, decide_eq_true_eq]
  exact and_assoc

theorem classifierUnit_isZero_iff :
    (classifierUnit d onSigned w).isZero = true ↔
      classifiedValue onSigned (decoderUnit d w) = 0 ∨ 9999999 < classifiedValue onSigned (decoderUnit d w) :=
  zeroFlag_iff _

theorem classifierUnit_isValid_iff :
    (classifierUnit d onSigned w).isValid = true ↔
      (-95 ≤ (decoderUnit d w).exp.toInt ∧ (decoderUnit d w).exp.toInt ≤ 96) ∧
        0 ≤ classifiedValue onSigned (decoderUnit d w) ∧ classifiedValue onSigned (decoderUnit d w) ≤ 9999999 :=
  (validFlag_iff _ _ _).trans (by simp)

theorem classifierUnit_isInf_iff : (classifierUnit d onSigned w).isInf = true ↔ w.toNat / 67108864 % 32 = 30 := by
  rw [← combField_toNat]
  show (combField w == 0b11110#5) = true ↔ _
  rw [beq_iff_eq, ← BitVec.toNat_inj]
  rfl

theorem classifierUnit_isNan_iff : (classifierUnit d onSigned w).isNan = true ↔ w.toNat / 67108864 % 32 = 31 := by
  rw [← combField_toNat]
  show (combField w == 0b11111#5) = true ↔ _
  rw [beq_iff_eq, ← BitVec.toNat_inj]
  rfl

@[simp] theorem classifiedValue_unsigned {d : Nat} (out : DecOut d) : classifiedValue false out = (out.mag.toNat : Int) :=
  rfl

@[simp] theorem classifiedValue_signed {d : Nat} (out : DecOut d) : classifiedValue true out = out.coef.toInt := rfl

end Classifier

end Sys2Proof.Machine
end

