-- ==== Sys2Proof/Machine/Caller.lean ====
section
/-! DEFINITION. The caller's side of spec/30_encoding.md R44: it assembles a line, presents the command, and binds the
outputs it reads to names of its own. The block knows nothing of this (10_state.md R14, R15). -/

namespace Sys2Proof

/-- The expansion R44 gives each pseudo-instruction. -/
def Pseudo.expand : Pseudo → List Line
  | .classify w => [⟨[], .zero w⟩, ⟨[], .valid w⟩, ⟨[], .isinf w⟩, ⟨[], .isnan w⟩]
  | .roundtrip c e => [⟨["w", "ok"], .encode c e⟩, ⟨[], .decode (.name "w")⟩]

end Sys2Proof

namespace Sys2Proof.Machine

/-- The outputs a result carries, in the order R42 lists them, each as an unsigned number (log entry 13). -/
def Result.values : Result → List Nat
  | .encoded o => [o.word.toNat, o.ok.toNat]
  | .decoded o => [o.sign.toNat, o.comb.toNat, o.econt.toNat, o.ccont.toNat, o.large.toNat, o.mag.toNat, o.exp.toNat,
      o.coef.toNat, o.ok.toNat]
  | .zero b => [b.toNat]
  | .valid b => [b.toNat]
  | .isInf b => [b.toNat]
  | .isNan b => [b.toNat]

/-- Why a caller's line does not run. -/
inductive LineStop where
  /-- "An assembler rejects an operand that does not fit its field" (R44), or a name is unbound. Safe. -/
  | rejected
  /-- The step faults. Safe. -/
  | fault (r : Fault)
  /-- The step refuses. Safe. -/
  | refused (r : Refusal)
  deriving DecidableEq, Repr

/-- Binds names to the outputs of a result, the first name to the first output (R44). R44 does not say what a line does
whose names are more or fewer than its result's outputs: here the line is accepted, a name with no output is not bound
by it (it stays unbound, or keeps its older value), and an output with no name is dropped; a name written twice in one
line ends with the later output (DESIGN CHOICE, log entry 13). -/
def bindResult (binds : List String) (r : Option Result) (names : Names) : Names :=
  match r with
  | none => names
  | some r => (binds.zip r.values).reverse ++ names

/-- One line of a caller's program: assemble, present as the next command, before any that already stand in the caller's
list, step, bind (R44; that it goes first is a DESIGN CHOICE, log entry 13). -/
def runLine (l : Line) (names : Names) (s : State) : Except LineStop (Names × State) :=
  match assemble names l.asm with
  | none => .error .rejected
  | some c =>
    match step { s with pending := c :: s.pending } with
    | .next t => .ok (bindResult l.binds t.result names, t)
    | .fault r => .error (.fault r)
    | .refused r => .error (.refused r)

/-- A caller's program without branches, in order. A caller that branches on a result does so outside the block (R45). -/
def runLines : List Line → Names → State → Except LineStop (Names × State)
  | [], names, s => .ok (names, s)
  | l :: rest, names, s =>
    match runLine l names s with
    | .ok (names', s') => runLines rest names' s'
    | .error e => .error e

end Sys2Proof.Machine
end

