-- ==== Sys2Proof/Tests/Slice0.lean ====
section
/-! SUPPORT. The model's own tests. Every expected value is the spec's: a vector of spec/95_test_vectors.md (its id stands
in the test's comment) or an encoding written out from spec/30_encoding.md R41 and R42. Then, for every obligation with
hypotheses, a witness that meets them. -/

namespace Sys2Proof.Tests

open Sys2Proof.Machine

/-- The result a step ends with, for comparing. -/
def resultOf (o : Host.Outcome State Fault Refusal) : Option Result :=
  match o with
  | .next t => t.result
  | .fault _ => none
  | .refused _ => none

/-- The step refused, and why. -/
def refusalOf (o : Host.Outcome State Fault Refusal) : Option Refusal :=
  match o with
  | .next _ => none
  | .fault _ => none
  | .refused r => some r

/-- A state whose caller has these commands to present. -/
def presenting (cs : List Command) : State := { State.reset with pending := cs }

/-! ### Decoding: each row's word, written bit by bit as op, b, a (R41, R42) -/

theorem test_decode_word_encode :
    decode 0b0001111111100000000000000000000000000000010#43 = .instr (.encode 2#32 0xFF#8) := by decide

theorem test_decode_word_decode :
    decode 0b0010000000001100100000010001001011001111111#43 = .instr (.decode 0x6408967F#32) := by decide

theorem test_decode_word_zero :
    decode 0b0100000000010000000000000000000000000000000#43 = .instr (.zero 0x80000000#32) := by decide

/-- `b` is all ones here and ignored (R42). -/
theorem test_decode_word_valid_ignores_b :
    decode 0b0111111111100000000000000000000000000000001#43 = .instr (.valid 1#32) := by decide

theorem test_decode_word_isinf :
    decode 0b1000000000001111000000000000000000000000000#43 = .instr (.isinf 0x78000000#32) := by decide

theorem test_decode_word_isnan :
    decode 0b1010000000011111111111111111111111111111111#43 = .instr (.isnan 0xFFFFFFFF#32) := by decide

/-- P6. -/
theorem test_decode_word_reserved : decode 0x60012345678#43 = .reservedOp 0b110#3 := by decide

theorem test_decode_table_word_in_bytes : decodeTableWord 48 0x1006408967F = some (.decode 0x6408967F#32) := by decide

/-! ### WellFormed refuses what it should -/

theorem test_wf_refuses_coef_too_large : Asm.wellFormed (.encode 2147483648 0) = false := by decide
theorem test_wf_refuses_coef_too_small : Asm.wellFormed (.encode (-2147483649) 0) = false := by decide
theorem test_wf_refuses_exp_too_large : Asm.wellFormed (.encode 0 128) = false := by decide
theorem test_wf_refuses_exp_too_small : Asm.wellFormed (.encode 0 (-129)) = false := by decide
theorem test_wf_accepts_the_field_limits : Asm.wellFormed (.encode (-2147483648) (-128)) = true := by decide
theorem test_wf_refuses_wide_decode_word : Asm.wellFormed (.decode (.value 4294967296)) = false := by decide
theorem test_wf_refuses_wide_zero_word : Asm.wellFormed (.zero (.value 4294967296)) = false := by decide
theorem test_wf_refuses_wide_valid_word : Asm.wellFormed (.valid (.value 4294967296)) = false := by decide
theorem test_wf_refuses_wide_isinf_word : Asm.wellFormed (.isinf (.value 4294967296)) = false := by decide
theorem test_wf_refuses_wide_isnan_word : Asm.wellFormed (.isnan (.value 4294967296)) = false := by decide
theorem test_wf_refuses_op_110 : Command.wellFormed 0x60012345678#43 = false := by decide
theorem test_wf_refuses_op_111 : Command.wellFormed 0x70000000000#43 = false := by decide
theorem test_wf_accepts_op_101 : Command.wellFormed 0x5FFFFFFFFFF#43 = true := by decide

/-! ### One step per instruction -/

/-- S1. -/
theorem test_encode_negative_exponent :
    resultOf (exec (.encode 2#32 (BitVec.ofInt 8 (-95))) State.reset) = some (.encoded ⟨0x42100002#32, true⟩) := by decide

/-- E31: the most negative coefficient, no wrap. -/
theorem test_encode_most_negative_coefficient :
    resultOf (exec (.encode 0x80000000#32 0#8) State.reset) = some (.encoded ⟨0xFFFFFFFF#32, false⟩) := by decide

/-- DV4. -/
theorem test_decode_negative :
    resultOf (exec (.decode 0xC2100002#32) State.reset) =
      some (.decoded ⟨1#1, 0b10000#5, 0x21#6, 2#20, false, 2#24, BitVec.ofInt 8 (-95), BitVec.ofInt 32 (-2), true⟩) := by
  decide

/-- DV18. -/
theorem test_decode_non_canonical :
    resultOf (exec (.decode 0x64089680#32) State.reset) =
      some (.decoded ⟨0#1, 0b11001#5, 0#6, 0x89680#20, true, 10000000#24, 0#8, 10000000#32, true⟩) := by decide

/-- K10. -/
theorem test_zero_negative_non_canonical :
    resultOf (exec (.zero 0xE4089680#32) State.reset) = some (.zero true) := by decide

/-- K12. -/
theorem test_zero_infinity : resultOf (exec (.zero 0x78000000#32) State.reset) = some (.zero false) := by decide

/-- K4. -/
theorem test_valid_negative : resultOf (exec (.valid 0xC2100002#32) State.reset) = some (.valid true) := by decide

/-- K17. -/
theorem test_valid_nan_above_limit : resultOf (exec (.valid 0x7C089680#32) State.reset) = some (.valid false) := by decide

/-- K13. -/
theorem test_isinf_negative : resultOf (exec (.isinf 0xF8000000#32) State.reset) = some (.isInf true) := by decide

/-- K15. -/
theorem test_isinf_nan : resultOf (exec (.isinf 0x7C000000#32) State.reset) = some (.isInf false) := by decide

/-- K18. -/
theorem test_isnan_fail_word : resultOf (exec (.isnan 0xFFFFFFFF#32) State.reset) = some (.isNan true) := by decide

/-- K14. -/
theorem test_isnan_infinity : resultOf (exec (.isnan 0x7BFFFFFF#32) State.reset) = some (.isNan false) := by decide

/-- K10 under the other reading of R78. -/
theorem test_signed_reading_zero : (classifierUnit 32 true 0xE4089680#32).isZero = false := by decide

/-- K4 under the other reading of R78. -/
theorem test_signed_reading_valid : (classifierUnit 32 true 0xC2100002#32).isValid = false := by decide

/-! ### The step, and the caller -/

/-- P6: "the model records a refusal". -/
theorem test_step_refuses_reserved :
    refusalOf (step (presenting [0x60012345678#43])) = some (.reservedOp 0b110#3) := by decide

/-- P1 step 1, placed as a table word of six bytes after reset. -/
theorem test_step_runs_placed_word :
    resultOf (step (State.reset.withFetchWord 48 0x0000098967F)) = some (.encoded ⟨0x6408967F#32, true⟩) := by decide

/-- P3 step 1: the command word of `ENCODE 2, -1`. -/
theorem test_assemble_encode : assemble [] (.encode 2 (-1)) = some 0x0FF00000002#43 := by decide

/-- A name stands for the value a caller bound to it. -/
theorem test_assemble_name : assemble [("w", 0x63F00002)] (.decode (.name "w")) = some 0x10063F00002#43 := by decide

/-- The outputs of ENCODE are bound in the order of R42 (P3 step 1). -/
theorem test_bind_encode :
    bindResult ["w", "ok"] (some (.encoded ⟨0x63F00002#32, true⟩)) [] = [("ok", 1), ("w", 0x63F00002)] := by decide

/-- CLASSIFY is four commands on the same word (R44; the command words of P4 steps 2 to 5). -/
theorem test_classify_expands :
    (Pseudo.expand (.classify (.value 0x7BF00000))).map (fun l => assemble [] l.asm) =
      [some 0x2007BF00000#43, some 0x3007BF00000#43, some 0x4007BF00000#43, some 0x5007BF00000#43] := by decide

/-! ### Witnesses: every obligation's hypotheses can be met -/

theorem witness_StepRunsPresentedCommand :
    (presenting [0x1006408967F#43]).pending = 0x1006408967F#43 :: [] ∧
      decode 0x1006408967F#43 = .instr (.decode 0x6408967F#32) := by decide

theorem witness_StepWithoutCommandStops : State.reset.pending = [] := by decide

theorem witness_StepRefusesExactlyReservedOps_first_reserved :
    (presenting [0x60000000000#43]).pending = 0x60000000000#43 :: [] ∧ 6 ≤ (0x60000000000#43).toNat / 2 ^ 40 := by decide

theorem witness_StepRefusesExactlyReservedOps_last_accepted :
    (presenting [0x5FFFFFFFFFF#43]).pending = 0x5FFFFFFFFFF#43 :: [] ∧ (0x5FFFFFFFFFF#43).toNat / 2 ^ 40 ≤ 5 := by decide

theorem witness_EncodeOfDecode_encode :
    decode 0x0FF00000002#43 = .instr (.encode 2#32 0xFF#8) ∧ (0x0FF00000002#43).toNat / 2 ^ 40 = 0 := by decide

theorem witness_EncodeOfDecode_other :
    decode 0x1FF00000002#43 = .instr (.decode 2#32) ∧ ¬ (0x1FF00000002#43).toNat / 2 ^ 40 = 0 := by decide

theorem witness_CommandsDifferingInIgnoredBRunAlike :
    1 ≤ (0x1FF00000002#43).toNat / 2 ^ 40 ∧ (0x10000000002#43).toNat / 2 ^ 40 = (0x1FF00000002#43).toNat / 2 ^ 40 ∧
      (0x10000000002#43).toNat % 2 ^ 32 = (0x1FF00000002#43).toNat % 2 ^ 32 := by decide

theorem witness_TableWordRunsItsInstruction : decodeTableWord 48 0x50000000000 = some (.isnan 0#32) := by decide

theorem witness_EvaluationLeavesOtherUnits_encoder :
    (∃ t, exec (.encode 1#32 0#8) State.reset = .next t) ∧ Reading.unitOf (.encode 1#32 0#8) ≠ .decoder ∧
      Reading.unitOf (.encode 1#32 0#8) ≠ .classifier := ⟨⟨_, rfl⟩, by decide, by decide⟩

theorem witness_EvaluationLeavesOtherUnits_decoder :
    (∃ t, exec (.decode 1#32) State.reset = .next t) ∧ Reading.unitOf (.decode 1#32) ≠ .encoder :=
  ⟨⟨_, rfl⟩, by decide⟩

theorem witness_EncodeOutOfRangeGivesFailWord_coefficient : 9999999 < (10000000#32).toInt.natAbs := by decide
theorem witness_EncodeOutOfRangeGivesFailWord_low : (BitVec.ofInt 8 (-96)).toInt < -95 := by decide
theorem witness_EncodeOutOfRangeGivesFailWord_high : 96 < (97#8).toInt := by decide

theorem witness_InRange_limits :
    Reading.InRange (9999999#32).toInt (96#8).toInt ∧
      Reading.InRange (BitVec.ofInt 32 (-9999999)).toInt (BitVec.ofInt 8 (-95)).toInt := by decide

theorem witness_InRange_largest_normal_and_smallest_large :
    Reading.InRange (8388607#32).toInt (0#8).toInt ∧ Reading.InRange (8388608#32).toInt (0#8).toInt := by decide

theorem witness_EncodeSignSymmetry :
    Reading.InRange (1#32).toInt (0#8).toInt ∧ 1#32 ≠ 0#32 ∧ Reading.InRange (0#32).toInt (0#8).toInt := by decide

theorem witness_EncoderGivesNoNegativeZero : -95 ≤ (BitVec.ofInt 8 (-95)).toInt ∧ (BitVec.ofInt 8 (-95)).toInt ≤ 96 := by
  decide

/-- E17 and E18. -/
theorem witness_EncodeNotInjective :
    Reading.InRange (2#32).toInt (0xFF#8).toInt ∧ (2#32).toInt.natAbs < 8388608 ∧ -64 ≤ (0xFF#8).toInt ∧
      (0xFF#8).toInt ≤ -1 ∧
      ((8388610#32).toInt = if (2#32).toInt < 0 then -(8388608 + ((2#32).toInt.natAbs % 2097152 : Nat) : Int)
        else (8388608 + ((2#32).toInt.natAbs % 2097152 : Nat) : Int)) ∧
      (63#8).toNat = (2#32).toInt.natAbs / 2097152 * 64 + (0xFF#8).toNat % 64 ∧
      Reading.InRange (8388610#32).toInt (63#8).toInt := by decide

theorem witness_EncoderRulesHoldAtEveryWidth :
    25 ≤ 25 ∧ Reading.InRange (9999999#25).toInt (0#8).toInt ∧ ¬ Reading.InRange (10000000#25).toInt (0#8).toInt ∧
      25 ≤ 32 ∧ 32 ≤ 32 := by decide

theorem witness_DecodeRebuilds_forms :
    Reading.comb 0x5FFFFFFF#32 / 8 ≠ 3 ∧ Reading.comb 0x60000000#32 / 8 = 3 := by decide

theorem witness_DecodeFoldsSign_negative_zero : Reading.sign 0x80000000#32 = 1 ∧ Reading.mag 0x80000000#32 = 0 := by
  decide

theorem witness_DecodeOutputRanges :
    (decoderUnit 32 0x5FFFFFFF#32).large = false ∧ (decoderUnit 32 0x60000000#32).large = true ∧
      (decoderUnit 32 0x7BFFFFFF#32).comb = 0b11110#5 ∧ (decoderUnit 32 0x7C000000#32).comb = 0b11111#5 := by decide

theorem witness_SignedCoefficientExactAtEveryWidth : 25 ≤ 25 := by decide

/-- RT3 and RT4: both ends of the exponents that collide. -/
theorem witness_CollidingEncodeDecodesIntoLargeForm :
    (2#32).toInt.natAbs < 8388608 ∧ -64 ≤ (0xC0#8).toInt ∧ (0xC0#8).toInt ≤ -1 ∧ -64 ≤ (0xFF#8).toInt ∧
      (0xFF#8).toInt ≤ -1 := by decide

theorem witness_ClassifierTableByForm_predicates :
    Instr.zero 0#32 ∈ Reading.predicates 0#32 ∧ Instr.isnan 0#32 ∈ Reading.predicates 0#32 := by decide

theorem witness_ClassifierTableByForm_forms :
    Reading.comb 0x5FFFFFFF#32 / 8 ≠ 3 ∧ 24 ≤ Reading.comb 0x60000000#32 ∧ Reading.comb 0x77FFFFFF#32 ≤ 29 ∧
      Reading.comb 0x7BFFFFFF#32 = 30 ∧ Reading.comb 0x7C000000#32 = 31 := by decide

theorem witness_ClassifierIgnoresSign :
    Instr.zero ∈ [Instr.zero, Instr.valid, Instr.isinf, Instr.isnan] := List.mem_cons_self

theorem witness_SignedReadingOfPredicates :
    Reading.sign 0x7FFFFFFF#32 = 0 ∧ (Reading.sign 0xE4089680#32 = 1 ∧ 9999999 < Reading.mag 0xE4089680#32) ∧
      (Reading.sign 0xE408967F#32 = 1 ∧ Reading.mag 0xE408967F#32 ≤ 9999999 ∧ Reading.mag 0xE408967F#32 ≠ 0) ∧
      (Reading.sign 0x80000000#32 = 1 ∧ Reading.mag 0x80000000#32 = 0) := by decide

theorem witness_StepKeepsInvariant :
    (presenting [0x1006408967F#43]).Inv ∧ ∃ t, step (presenting [0x1006408967F#43]) = .next t := ⟨by decide, ⟨_, rfl⟩⟩

theorem witness_OutputsDependOnlyOnCommand :
    (presenting [0x1006408967F#43]).pending = 0x1006408967F#43 :: [] ∧
      (presenting [0x1006408967F#43, 0#43]).pending = 0x1006408967F#43 :: [0#43] ∧
      (∃ t, step (presenting [0x1006408967F#43]) = .next t) ∧ (0x1006408967F#43).toNat / 2 ^ 40 = 1 :=
  ⟨rfl, rfl, ⟨_, rfl⟩, by decide⟩

theorem witness_OutputsDependOnlyOnCommand_other_units :
    (∃ t, step (presenting [0x0FF00000002#43]) = .next t) ∧ (0x0FF00000002#43).toNat / 2 ^ 40 = 0 ∧
      (∃ t, step (presenting [0x5FFFFFFFFFF#43]) = .next t) ∧ 2 ≤ (0x5FFFFFFFFFF#43).toNat / 2 ^ 40 :=
  ⟨⟨_, rfl⟩, by decide, ⟨_, rfl⟩, by decide⟩

theorem witness_RepeatingEvaluationIsIdempotent : ∃ t, exec (.zero 0#32) State.reset = .next t := ⟨_, rfl⟩

theorem witness_EvaluationsOfDifferentUnitsCommute :
    Reading.unitOf (.encode 0#32 0#8) ≠ Reading.unitOf (.decode 0#32) := by decide

theorem witness_TiedInputsGiveBothResults : Instr.valid 0#32 ∈ Reading.predicates 0#32 := by decide

theorem witness_AssemblerFitsOperandsToFields :
    (coefFits (-2147483648) ∧ expFits 127) ∧ ¬ (coefFits 2147483648 ∧ expFits 0) ∧ 4294967295 < 2 ^ 32 ∧
      2 ^ 32 ≤ 4294967296 ∧ Names.value [("w", 5)] "w" = some 5 ∧ Names.value [] "w" = none := by decide

theorem witness_FailedEncodeAnswersSentinel_coefficient :
    (BitVec.ofInt 32 (-10000000)).toInt ≠ -2147483648 ∧ 9999999 < (BitVec.ofInt 32 (-10000000)).toInt.natAbs := by decide

theorem witness_FailedEncodeAnswersSentinel_exponents :
    (BitVec.ofInt 8 (-96)).toInt < -95 ∧ 96 < (97#8).toInt := by decide

/-- E31: an encode that fails, so that the first clause is met too. -/
theorem witness_FailedEncodeAnswersSentinel_fails : (encoderUnit 0x80000000#32 0#8).ok = false := by decide

/-- S4: a successful encode of the largest normal-form magnitude. -/
theorem witness_EncodedSignAndNormalFormFields :
    (encoderUnit 8388607#32 0#8).ok = true ∧ (8388607#32).toInt.natAbs < 8388608 := by decide

/-- The last normal-form word below the sign bit and the first large-form word. -/
theorem witness_DecodeAssemblesItsFields :
    (decoderUnit 32 0x5FFFFFFF#32).large = false ∧ (decoderUnit 32 0x60000000#32).large = true := by decide

end Sys2Proof.Tests
end

section
/-! PROOFS, family 40_encode. The encoder's answer through its success flag (R47, R48), and the fields of a packed word
as `Reading` reads them (R49, R52, R54). -/

namespace Sys2Proof.Machine

section EncoderFlag
variable {n : Nat} {x : BitVec n} {b : Exponent}

theorem encoderUnit_ok_iff : (encoderUnit x b).ok = true ↔ Reading.InRange x.toInt b.toInt := by
  by_cases h : Reading.InRange x.toInt b.toInt
  · exact iff_of_true (by rw [encoderUnit_succeeds x b h]) h
  · have hfail : 9999999 < x.toInt.natAbs ∨ b.toInt < -95 ∨ 96 < b.toInt := by omega
    exact iff_of_false (by simp [encoderUnit_fails x b hfail]) h

/-- Clearing the flag is the only way to answer a failure, and it always comes with the sentinel (R48). -/
theorem encoderUnit_eq_fail_of_not_ok (h : (encoderUnit x b).ok = false) :
    encoderUnit x b = ⟨Config.failWord, false⟩ := by
  have hout : ¬ Reading.InRange x.toInt b.toInt := fun hin => by
    rw [encoderUnit_ok_iff.2 hin] at h
    cases h
  exact encoderUnit_fails x b (by omega)

end EncoderFlag

theorem storedOf_toInt (b : Exponent) : Reading.storedOf b.toInt = b.toNat := by
  have hb := b.isLt
  rw [Reading.storedOf, exponent_toInt]
  split <;> omega

theorem reading_sign_packWord_signOf (c : Int) (m : Magnitude) (se : Exponent) :
    Reading.sign (packWord (signOf c) m se) = 1 ↔ c < 0 := by
  rw [Reading.sign, ← signField_toNat, signField_packWord, signOf_toNat]
  split <;> simp [*]

theorem reading_comb_packWord_of_normal (s : BitVec 1) {m : Magnitude} (se : Exponent) (h : m.toNat < 8388608) :
    Reading.comb (packWord s m se) = se.toNat / 64 * 8 + m.toNat / 1048576 := by
  rw [Reading.comb, ← combField_toNat, combField_packWord, packComb_toNat, if_neg (by omega),
    Nat.mod_eq_of_lt (by omega : m.toNat / 1048576 < 8)]

theorem reading_econt_packWord (s : BitVec 1) (m : Magnitude) (se : Exponent) :
    Reading.econt (packWord s m se) = se.toNat % 64 := by
  rw [Reading.econt, ← econtField_toNat, econtField_packWord]

theorem reading_ccont_packWord (s : BitVec 1) (m : Magnitude) (se : Exponent) :
    Reading.ccont (packWord s m se) = m.toNat % 1048576 := by
  rw [Reading.ccont, ← ccontField_toNat, ccontField_packWord]

end Sys2Proof.Machine

open Sys2Proof Sys2Proof.Machine

/-- Settles O42: the encoder clears its flag on exactly the out-of-range inputs, and then answers the sentinel. -/
theorem failedEncodeAnswersSentinel : Obligations.FailedEncodeAnswersSentinel := by
  intro s a b
  refine ⟨_, encoderUnit a b, exec_encode a b s, rfl, ?_, ?_⟩
  · intro hok
    rw [encoderUnit_eq_fail_of_not_ok hok, Config.failWord]
  · intro hout
    have hfail : 9999999 < a.toInt.natAbs ∨ b.toInt < -95 ∨ 96 < b.toInt := hout.imp_left And.right
    rw [encoderUnit_fails a b hfail]
    exact ⟨rfl, rfl⟩

/-- Settles O43: a successful encode is the packed word, whose fields are those packed. -/
theorem encodedSignAndNormalFormFields : Obligations.EncodedSignAndNormalFormFields := by
  intro s a b
  refine ⟨_, encoderUnit a b, exec_encode a b s, rfl, fun hok => ?_⟩
  have hin := encoderUnit_ok_iff.1 hok
  have hmag : (magOf a.toInt).toNat = a.toInt.natAbs := magOf_toNat hin.1
  rw [encoderUnit_succeeds a b hin, storedOf_toInt, ← hmag]
  exact ⟨reading_sign_packWord_signOf _ _ _, fun hnormal =>
    ⟨reading_comb_packWord_of_normal _ _ hnormal, reading_econt_packWord _ _ _, reading_ccont_packWord _ _ _⟩⟩
end

section
/-! PROOFS, family 41_decode. What the decoder assembles from its own fields, one form of R62 at a time (R63, R64). -/

namespace Sys2Proof.Machine

variable {comb : BitVec 5}

theorem isLargeComb_eq_false_iff : isLargeComb comb = false ↔ comb.toNat / 8 ≠ 3 := by
  rw [isLargeComb_eq, decide_eq_false_iff_not]

theorem assembleMag_toNat_of_normal (h : isLargeComb comb = false) (ccont : BitVec 20) :
    (assembleMag comb ccont).toNat = comb.toNat % 8 * 1048576 + ccont.toNat := by
  rw [assembleMag_toNat, if_neg (isLargeComb_eq_false_iff.1 h)]

theorem assembleExp_toNat_of_normal (h : isLargeComb comb = false) (econt : BitVec 6) :
    (assembleExp comb econt).toNat = comb.toNat / 8 * 64 + econt.toNat := by
  rw [assembleExp_toNat, if_neg (isLargeComb_eq_false_iff.1 h)]

theorem assembleMag_toNat_of_large (h : isLargeComb comb = true) (ccont : BitVec 20) :
    (assembleMag comb ccont).toNat = 8388608 + 1048576 * (comb.toNat % 2) + ccont.toNat := by
  rw [assembleMag_toNat, if_pos ((isLargeComb_iff comb).1 h), Nat.mul_comm]

theorem assembleExp_toNat_of_large (h : isLargeComb comb = true) (econt : BitVec 6) :
    (assembleExp comb econt).toNat = comb.toNat / 2 % 4 * 64 + econt.toNat := by
  rw [assembleExp_toNat, if_pos ((isLargeComb_iff comb).1 h)]

end Sys2Proof.Machine

open Sys2Proof Sys2Proof.Machine

/-- Settles O44: the decoder's magnitude and exponent are its own fields, assembled as its own `large` flag says. -/
theorem decodeAssemblesItsFields : Obligations.DecodeAssemblesItsFields := by
  intro s w
  refine ⟨_, decoderUnit 32 w, exec_decode w s, rfl, isLargeComb_iff _, fun hnormal => ?_, fun hlarge => ?_,
    decoderUnit_ok 32 w⟩
  · exact ⟨assembleMag_toNat_of_normal hnormal _, assembleExp_toNat_of_normal hnormal _⟩
  · exact ⟨assembleMag_toNat_of_large hlarge _, assembleExp_toNat_of_large hlarge _⟩
end

section
/-! PROOFS, family other: the command view. What the decoder says of a command word in terms of its `op` as a number
(R41 to R43), and what the encoder gives back for what was decoded. -/

namespace Sys2Proof

theorem decode_encode (i : Instr) : decode (encode i) = .instr i := by
  cases i <;> simp [encode, decode]

/-- `op` as the obligations write it. -/
theorem div_two_pow_eq_op (c : Command) : c.toNat / 2 ^ 40 = (commandOp c).toNat := (commandOp_toNat c).symm

theorem commandOp_ne_encode_iff (c : Command) : commandOp c ≠ 0b000#3 ↔ 1 ≤ c.toNat / 2 ^ 40 := by
  rw [Ne, ← BitVec.toNat_inj, div_two_pow_eq_op]
  exact Nat.one_le_iff_ne_zero.symm

/-- The encoder writes back the operation and operand A it was decoded from, and operand B for ENCODE only (R42). -/
theorem encode_of_decode {c : Command} {i : Instr} (h : decode c = .instr i) :
    encode i = commandWord (commandOp c) (if commandOp c = 0b000#3 then commandB c else 0#8) (commandA c) := by
  rcases decode_cases c with ⟨hop, hd⟩ | ⟨hop, hd⟩ | ⟨hop, hd⟩ | ⟨hop, hd⟩ | ⟨hop, hd⟩ | ⟨hop, hd⟩ | ⟨-, hd⟩ <;>
    rw [hd] at h <;> cases h <;> simp [encode, hop]

/-- Outside ENCODE the decoder reads `op` and `a` only (R42). -/
theorem decode_congr {c c' : Command} (hop : commandOp c' = commandOp c) (ha : commandA c' = commandA c)
    (hne : commandOp c ≠ 0b000#3) : decode c' = decode c := by
  simp [decode, hop, ha, hne]

theorem wellFormed_iff (c : Command) : Command.wellFormed c = true ↔ c.toNat / 2 ^ 40 ≤ 5 := by
  have hlt := c.isLt
  show (commandOp c != 0b110#3 && commandOp c != 0b111#3) = true ↔ _
  simp only [Bool.and_eq_true, bne_iff_ne, Ne, ← BitVec.toNat_inj, commandOp_toNat, BitVec.toNat_ofNat]
  omega

theorem decode_eq_reservedOp {c : Command} (h : 6 ≤ c.toNat / 2 ^ 40) :
    decode c = .reservedOp (BitVec.ofNat 3 (c.toNat / 2 ^ 40)) := by
  have hrefused : ¬ ∃ i, decode c = .instr i := by
    rw [decode_accepts_iff, wellFormed_iff]
    omega
  rw [div_two_pow_eq_op, BitVec.ofNat_toNat, BitVec.setWidth_eq]
  rcases decode_cases c with ⟨-, hd⟩ | ⟨-, hd⟩ | ⟨-, hd⟩ | ⟨-, hd⟩ | ⟨-, hd⟩ | ⟨-, hd⟩ | ⟨-, hd⟩
  on_goal 7 => exact hd
  all_goals exact absurd ⟨_, hd⟩ hrefused

end Sys2Proof

namespace Sys2Proof.Machine

/-- The unit a decoded command evaluates, from its `op` as a number (R42). -/
theorem unitOf_of_decode {c : Command} {i : Instr} (h : decode c = .instr i) :
    Reading.unitOf i =
      if c.toNat / 2 ^ 40 = 0 then .encoder else if c.toNat / 2 ^ 40 = 1 then .decoder else .classifier := by
  rw [div_two_pow_eq_op]
  rcases decode_cases c with ⟨hop, hd⟩ | ⟨hop, hd⟩ | ⟨hop, hd⟩ | ⟨hop, hd⟩ | ⟨hop, hd⟩ | ⟨hop, hd⟩ | ⟨-, hd⟩ <;>
    rw [hd] at h <;> cases h <;> rw [hop] <;> rfl

end Sys2Proof.Machine

open Sys2Proof Sys2Proof.Machine

/-- Settles O7: the decoder reads back the operation and the operands the encoder wrote. -/
theorem decodeOfEncodeIsInstruction : Obligations.DecodeOfEncodeIsInstruction := decode_encode

/-- Settles O8: the encoder writes the decoded operation's own fields, in arithmetic. -/
theorem encodeOfDecodeClearsIgnoredOperandB : Obligations.EncodeOfDecodeClearsIgnoredOperandB := by
  intro c i hd
  rw [encode_of_decode hd, commandWord_toNat, commandOp_toNat, commandA_toNat]
  by_cases hop : commandOp c = 0b000#3
  · have hzero : ¬ 1 ≤ c.toNat / 2 ^ 40 := fun k => (commandOp_ne_encode_iff c).2 k hop
    rw [if_pos hop, if_pos (by omega), commandB_toNat]
    omega
  · have hpos := (commandOp_ne_encode_iff c).1 hop
    rw [if_neg hop, if_neg (by omega), BitVec.toNat_ofNat]
    omega

/-- Settles O6: each written word decodes by evaluation. -/
theorem decodesWrittenCommandWords : Obligations.DecodesWrittenCommandWords := by
  unfold Obligations.DecodesWrittenCommandWords
  decide
end

section
/-! PROOFS, family other: the step and the whole machine. Every command drives one unit's inputs and then reads a
result (R41, R42): what it keeps and what it depends on follows from these two parts. -/

namespace Sys2Proof.Machine

/-- The ports a command drives (R41). -/
def drive : Instr → State → State
  | .encode a b, s => s.setEncoder (some (coefOfOperand a)) (some b)
  | .decode w, s => s.setDecoder (some w)
  | .zero w, s => s.setClassifier (some w)
  | .valid w, s => s.setClassifier (some w)
  | .isinf w, s => s.setClassifier (some w)
  | .isnan w, s => s.setClassifier (some w)

/-- The outputs a command reads (R42). -/
def selectOf : Instr → Select
  | .encode _ _ => .encoder
  | .decode _ => .decoder
  | .zero _ => .zero
  | .valid _ => .valid
  | .isinf _ => .isInf
  | .isnan _ => .isNan

/-- Every command drives its unit and reads its result. -/
theorem exec_eq_drive_readResult (i : Instr) (s : State) : exec i s = .next ((drive i s).readResult (selectOf i)) := by
  cases i <;> rfl

theorem exec_eq_next_iff {i : Instr} {s t : State} :
    exec i s = .next t ↔ t = (drive i s).readResult (selectOf i) := by
  rw [exec_eq_drive_readResult, Host.Outcome.next.injEq, eq_comm]

section Drive
variable (i : Instr) (s : State)

/-- One unit's input ports are all a command drives. -/
theorem drive_cases :
    (∃ a b, Reading.unitOf i = .encoder ∧ ∀ s, drive i s = s.setEncoder (some a) (some b)) ∨
      (∃ w, Reading.unitOf i = .decoder ∧ ∀ s, drive i s = s.setDecoder (some w)) ∨
        ∃ w, Reading.unitOf i = .classifier ∧ ∀ s, drive i s = s.setClassifier (some w) := by
  cases i with
  | encode a b => exact .inl ⟨coefOfOperand a, b, rfl, fun _ => rfl⟩
  | decode w => exact .inr (.inl ⟨w, rfl, fun _ => rfl⟩)
  | zero w | valid w | isinf w | isnan w => exact .inr (.inr ⟨w, rfl, fun _ => rfl⟩)

@[simp] theorem drive_pending : (drive i s).pending = s.pending := by cases i <;> rfl

theorem drive_settled {s : State} (h : s.PortsSettled) : (drive i s).PortsSettled := by
  cases i with
  | encode a b => exact setEncoder_settled h _ _
  | decode w => exact setDecoder_settled h _
  | zero w | valid w | isinf w | isnan w => exact setClassifier_settled h _

/-- What a command reads is known once its unit is driven, and depends on the command alone (R18, R29). -/
theorem selected_drive : ∃ r, ∀ s, (drive i s).selected (selectOf i) = some r := by
  cases i <;> exact ⟨_, fun _ => rfl⟩

theorem drive_encoder_frame (h : Reading.unitOf i ≠ .encoder) :
    (drive i s).encCoef = s.encCoef ∧ (drive i s).encExp = s.encExp ∧ (drive i s).encOut = s.encOut := by
  cases i with
  | encode a b => exact absurd rfl h
  | decode w | zero w | valid w | isinf w | isnan w => exact ⟨rfl, rfl, rfl⟩

theorem drive_decoder_frame (h : Reading.unitOf i ≠ .decoder) :
    (drive i s).decWord = s.decWord ∧ (drive i s).decOut = s.decOut := by
  cases i with
  | decode w => exact absurd rfl h
  | encode _ _ | zero w | valid w | isinf w | isnan w => exact ⟨rfl, rfl⟩

theorem drive_classifier_frame (h : Reading.unitOf i ≠ .classifier) :
    (drive i s).clsWord = s.clsWord ∧ (drive i s).clsOut = s.clsOut := by
  cases i with
  | encode _ _ | decode w => exact ⟨rfl, rfl⟩
  | zero w | valid w | isinf w | isnan w => exact absurd rfl h

/-- A driven unit's ports forget what stood on them before (R13, R18). -/
theorem drive_encoder_congr (s' : State) (h : Reading.unitOf i = .encoder) :
    (drive i s').encCoef = (drive i s).encCoef ∧ (drive i s').encExp = (drive i s).encExp ∧
      (drive i s').encOut = (drive i s).encOut := by
  cases i with
  | encode a b => exact ⟨rfl, rfl, rfl⟩
  | decode w | zero w | valid w | isinf w | isnan w => cases h

theorem drive_decoder_congr (s' : State) (h : Reading.unitOf i = .decoder) :
    (drive i s').decWord = (drive i s).decWord ∧ (drive i s').decOut = (drive i s).decOut := by
  cases i with
  | decode w => exact ⟨rfl, rfl⟩
  | encode _ _ | zero w | valid w | isinf w | isnan w => cases h

theorem drive_classifier_congr (s' : State) (h : Reading.unitOf i = .classifier) :
    (drive i s').clsWord = (drive i s).clsWord ∧ (drive i s').clsOut = (drive i s).clsOut := by
  cases i with
  | encode _ _ | decode w => cases h
  | zero w | valid w | isinf w | isnan w => exact ⟨rfl, rfl⟩

/-- Driving a unit again with the same operands, its result read in between, changes no port (R27). -/
theorem drive_readResult_drive : drive i ((drive i s).readResult (selectOf i)) = (drive i s).readResult (selectOf i) := by
  cases i <;> rfl

/-- Driving different units in either order leaves the same ports (R86). -/
theorem drive_comm (j : Instr) (h : Reading.unitOf i ≠ Reading.unitOf j) :
    { drive j ((drive i s).readResult (selectOf i)) with result := none } =
      { drive i ((drive j s).readResult (selectOf j)) with result := none } := by
  rcases drive_cases i with ⟨a, b, hi, di⟩ | ⟨w, hi, di⟩ | ⟨w, hi, di⟩ <;>
    rcases drive_cases j with ⟨a', b', hj, dj⟩ | ⟨w', hj, dj⟩ | ⟨w', hj, dj⟩
  case inl.inl | inr.inl.inr.inl | inr.inr.inr.inr => exact absurd (hi.trans hj.symm) h
  all_goals simp only [di, dj]; rfl

end Drive

theorem select_of_selected {s : State} {sel : Select} {r : Result} (h : s.selected sel = some r) : r.select = sel := by
  cases sel <;> obtain ⟨o, -, rfl⟩ := Option.map_eq_some_iff.1 h <;> rfl

/-- A result just read is current: its own selection is the one it was read by. -/
theorem readResult_current (s : State) (sel : Select) : (s.readResult sel).ResultCurrent := by
  cases h : s.selected sel with
  | none => simp [State.ResultCurrent, h]
  | some r => simp [State.ResultCurrent, h, select_of_selected h]

theorem exec_keeps_inv {i : Instr} {s t : State} (hs : s.PortsSettled) (h : exec i s = .next t) : t.Inv := by
  rw [exec_eq_next_iff.1 h]
  exact ⟨drive_settled i hs, readResult_current _ _⟩

theorem exec_result (i : Instr) : ∃ r, ∀ s, ∃ t, exec i s = .next t ∧ t.pending = s.pending ∧ t.result = some r := by
  obtain ⟨r, hr⟩ := selected_drive i
  exact ⟨r, fun s => ⟨_, exec_eq_drive_readResult i s, drive_pending i s, hr s⟩⟩

section Step
variable {s : State} {c : Command} {rest : List Command} (hp : s.pending = c :: rest)
include hp

theorem step_of_decode_instr {i : Instr} (hd : decode c = .instr i) : step s = exec i { s with pending := rest } := by
  simp [step, fetch_cons hp, hd]

theorem step_of_decode_reservedOp {op : BitVec 3} (hd : decode c = .reservedOp op) :
    step s = .refused (.reservedOp op) := by
  simp [step, fetch_cons hp, hd]

theorem ready_iff : s.Ready = true ↔ Command.wellFormed c = true := by
  simp [State.Ready, hp]

end Step

theorem step_of_pending_nil {s : State} (hp : s.pending = []) : step s = .fault .noEvaluation := by
  simp [step, hp]

/-- A command that is not reserved is evaluated, and taken off the caller's list. -/
theorem step_of_wellFormed {s : State} {c : Command} {rest : List Command} (hp : s.pending = c :: rest)
    (hwf : Command.wellFormed c = true) : ∃ t r, step s = .next t ∧ t.pending = rest ∧ t.result = some r := by
  obtain ⟨i, hd⟩ := (decode_accepts_iff c).2 hwf
  obtain ⟨r, hr⟩ := exec_result i
  obtain ⟨t, ht, hrest, hres⟩ := hr { s with pending := rest }
  exact ⟨t, r, (step_of_decode_instr hp hd).trans ht, hrest, hres⟩

end Sys2Proof.Machine

open Sys2Proof Sys2Proof.Machine

/-- Settles O36: driving a unit keeps every unit settled, and the result just read is current. -/
theorem stepKeepsInvariant : Obligations.StepKeepsInvariant := by
  intro s t hinv hstep
  obtain ⟨c, rest, i, -, -, hexec⟩ := step_next_cases hstep
  obtain ⟨hsettled, -⟩ := hinv
  exact exec_keeps_inv (s := { s with pending := rest }) hsettled hexec

/-- Settles O1, by the step on a command that decodes. -/
theorem stepRunsPresentedCommand : Obligations.StepRunsPresentedCommand :=
  fun _ _ _ _ hp hd => step_of_decode_instr hp hd

/-- Settles O2, by the step on an empty list. -/
theorem stepWithoutCommandStops : Obligations.StepWithoutCommandStops := fun _ hp => step_of_pending_nil hp

/-- Settles O3: the decoder refuses the ops from 6 on, and every instruction completes. -/
theorem stepRefusesExactlyReservedOps : Obligations.StepRefusesExactlyReservedOps := by
  intro s c rest hp
  constructor
  · intro hreserved
    exact step_of_decode_reservedOp hp (decode_eq_reservedOp hreserved)
  · intro hle
    exact step_of_wellFormed hp ((wellFormed_iff c).2 hle)

/-- Settles O4: a step that goes on has decoded its command, and a decoded command completes. -/
theorem stepIsSafeExactlyWhenReady : Obligations.StepIsSafeExactlyWhenReady := by
  intro s
  constructor
  · rintro ⟨t, hstep⟩
    obtain ⟨c, rest, i, hp, hd, -⟩ := step_next_cases hstep
    exact (ready_iff hp).2 ((decode_accepts_iff c).1 ⟨i, hd⟩)
  · intro hready
    cases hp : s.pending with
    | nil => simp [State.Ready, hp] at hready
    | cons c rest =>
      obtain ⟨t, -, hstep, -⟩ := step_of_wellFormed hp ((ready_iff hp).1 hready)
      exact ⟨t, hstep⟩

/-- Settles O5: every field of the reset state is absent, and its list is empty. -/
theorem resetIsUndrivenAndMeetsInvariant : Obligations.ResetIsUndrivenAndMeetsInvariant :=
  ⟨⟨⟨rfl, rfl, rfl⟩, rfl⟩, rfl, rfl, rfl, rfl, rfl, rfl, rfl, rfl, step_of_pending_nil rfl⟩

/-- Settles O9: the two commands decode to one instruction. -/
theorem commandsDifferingInIgnoredBRunAlike : Obligations.CommandsDifferingInIgnoredBRunAlike := by
  intro s c c' rest hne hop ha
  have hop' : commandOp c' = commandOp c := by
    rw [← BitVec.toNat_inj, ← div_two_pow_eq_op, ← div_two_pow_eq_op, hop]
  have ha' : commandA c' = commandA c := by
    rw [← BitVec.toNat_inj, commandA_toNat, commandA_toNat]
    exact ha
  have hd : decode c' = decode c := decode_congr hop' ha' ((commandOp_ne_encode_iff c).2 hne)
  simp [step, State.fetch, hd]

/-- Settles O10: the placed word stands first in the caller's list. -/
theorem tableWordRunsItsInstruction : Obligations.TableWordRunsItsInstruction := by
  intro s nbits w i hd
  have hdecode : decode (commandOfTableWord nbits w) = .instr i := by
    unfold decodeTableWord at hd
    split at hd
    · rename_i j hj
      rw [hj, Option.some.inj hd]
    · cases hd
  exact step_of_decode_instr (placeCommand_pending _ s) hdecode

/-- Settles O11: a driven unit's outputs are known. -/
theorem everyCommandCompletes : Obligations.EveryCommandCompletes := by
  intro i s
  obtain ⟨r, hr⟩ := exec_result i
  obtain ⟨t, ht, -, hres⟩ := hr s
  exact ⟨t, r, ht, hres⟩

/-- Settles O12: driving one unit leaves the others, and so does reading the result. -/
theorem evaluationLeavesOtherUnits : Obligations.EvaluationLeavesOtherUnits := by
  intro i s t hexec
  rw [exec_eq_next_iff.1 hexec]
  exact ⟨drive_pending i s, drive_encoder_frame i s, drive_decoder_frame i s, drive_classifier_frame i s⟩

/-- Settles O37: both states evaluate one instruction, whose driven unit forgets what stood there before. -/
theorem outputsDependOnlyOnCommand : Obligations.OutputsDependOnlyOnCommand := by
  intro s s' t c rest rest' hp hp' hstep
  obtain ⟨c₁, rest₁, i, hp₁, hd, hexec⟩ := step_next_cases hstep
  obtain ⟨rfl, rfl⟩ := List.cons.inj (hp.symm.trans hp₁)
  obtain ⟨r, hr⟩ := selected_drive i
  have hunit := unitOf_of_decode hd
  rw [exec_eq_next_iff.1 hexec]
  refine ⟨_, (step_of_decode_instr hp' hd).trans (exec_eq_drive_readResult i _), (hr _).trans (hr _).symm,
    fun hop => ?_, fun hop => ?_, fun hop => ?_⟩
  · exact drive_encoder_congr i _ _ (by rw [hunit, if_pos hop])
  · exact drive_decoder_congr i _ _ (by rw [hunit, if_neg (by omega), if_pos hop])
  · exact drive_classifier_congr i _ _ (by rw [hunit, if_neg (by omega), if_neg (by omega)])

/-- Settles O38: the ports already hold what the command drives. -/
theorem repeatingEvaluationIsIdempotent : Obligations.RepeatingEvaluationIsIdempotent := by
  intro i s t hexec
  rw [exec_eq_next_iff] at hexec ⊢
  subst hexec
  rw [drive_readResult_drive]
  rfl

/-- Settles O39: the two commands drive disjoint ports. -/
theorem evaluationsOfDifferentUnitsCommute : Obligations.EvaluationsOfDifferentUnitsCommute := by
  intro i j s hunits
  exact ⟨_, _, _, _, exec_eq_drive_readResult i s, exec_eq_drive_readResult j _, exec_eq_drive_readResult j s,
    exec_eq_drive_readResult i _, drive_comm i s j hunits⟩

/-- Settles O40: DECODE drives `dec_word`, and every predicate drives `cls_word` after it. -/
theorem tiedInputsGiveBothResults : Obligations.TiedInputsGiveBothResults := by
  intro s w i hi
  have hdrive : ∀ t, drive i t = t.setClassifier (some w) := by
    simp only [Reading.predicates, List.mem_cons, List.not_mem_nil, or_false] at hi
    rcases hi with rfl | rfl | rfl | rfl <;> exact fun _ => rfl
  refine ⟨_, _, exec_eq_drive_readResult _ s, exec_eq_drive_readResult i _, ?_⟩
  rw [hdrive]
  rfl
end

section
/-! PROOFS, family other: the words `Reading` reads. The decoder's outputs are `Reading`'s numbers of the word
(R61 to R66), and a packed word decodes to what was packed, but for the normal-form fields that start with `11` (R70). -/

namespace Sys2Proof.Machine

section DecoderUnit
variable (d : Nat) (w : Word)

theorem reading_comb_lt : Reading.comb w < 32 := Nat.mod_lt _ (by decide)

theorem reading_econt_lt : Reading.econt w < 64 := Nat.mod_lt _ (by decide)

theorem reading_ccont_lt : Reading.ccont w < 1048576 := Nat.mod_lt _ (by decide)

theorem signField_toNat_eq_reading : (signField w).toNat = Reading.sign w := signField_toNat w

theorem combField_toNat_eq_reading : (combField w).toNat = Reading.comb w := combField_toNat w

theorem econtField_toNat_eq_reading : (econtField w).toNat = Reading.econt w := econtField_toNat w

theorem ccontField_toNat_eq_reading : (ccontField w).toNat = Reading.ccont w := ccontField_toNat w

theorem signField_eq_one_iff : signField w = 1#1 ↔ Reading.sign w = 1 := by
  rw [← BitVec.toNat_inj, signField_toNat_eq_reading]
  rfl

theorem isLargeComb_combField_iff : isLargeComb (combField w) = true ↔ Reading.comb w / 8 = 3 := by
  rw [isLargeComb_iff, combField_toNat_eq_reading]

theorem decoderUnit_mag_toNat : (decoderUnit d w).mag.toNat = Reading.mag w := by
  rw [decoderUnit_mag, assembleMag_toNat, combField_toNat_eq_reading, ccontField_toNat_eq_reading, Reading.mag]
  simp only [Nat.mul_comm]

theorem decoderUnit_exp_toNat : (decoderUnit d w).exp.toNat = Reading.stored w := by
  rw [decoderUnit_exp, assembleExp_toNat, combField_toNat_eq_reading, econtField_toNat_eq_reading, Reading.stored]

theorem decoderUnit_exp_toInt : (decoderUnit d w).exp.toInt = Reading.exponent w := by
  rw [exponent_toInt, decoderUnit_exp_toNat, Reading.exponent]

theorem decoderUnit_coef_eq_coefficient (hd : 25 ≤ d) : (decoderUnit d w).coef.toInt = Reading.coefficient w := by
  rw [decoderUnit_coef_toInt d w hd, foldSign_eq, signField_toNat_eq_reading, ← decoderUnit_mag d,
    decoderUnit_mag_toNat, Reading.coefficient]

end DecoderUnit

section Forms
variable {w : Word}

theorem reading_mag_of_normal (h : Reading.comb w / 8 ≠ 3) :
    Reading.mag w = 1048576 * (Reading.comb w % 8) + Reading.ccont w := if_neg h

theorem reading_mag_of_large (h : Reading.comb w / 8 = 3) :
    Reading.mag w = 8388608 + 1048576 * (Reading.comb w % 2) + Reading.ccont w := if_pos h

theorem reading_stored_of_normal (h : Reading.comb w / 8 ≠ 3) :
    Reading.stored w = Reading.comb w / 8 * 64 + Reading.econt w := if_neg h

theorem reading_stored_of_large (h : Reading.comb w / 8 = 3) :
    Reading.stored w = Reading.comb w / 2 % 4 * 64 + Reading.econt w := if_pos h

theorem reading_mag_le_of_normal (h : Reading.comb w / 8 ≠ 3) : Reading.mag w ≤ 8388607 := by
  have hc := reading_ccont_lt w
  rw [reading_mag_of_normal h]
  omega

theorem reading_mag_bounds_of_large (h : Reading.comb w / 8 = 3) :
    8388608 ≤ Reading.mag w ∧ Reading.mag w ≤ 10485759 := by
  have hc := reading_ccont_lt w
  rw [reading_mag_of_large h]
  omega

theorem reading_mag_le (w : Word) : Reading.mag w ≤ 10485759 := by
  by_cases h : Reading.comb w / 8 = 3
  · exact (reading_mag_bounds_of_large h).2
  · have := reading_mag_le_of_normal h
    omega

/-- In the normal form the stored exponent's top two bits are not `11` (R69). -/
theorem reading_exponent_of_normal (h : Reading.comb w / 8 ≠ 3) :
    0 ≤ Reading.exponent w ∧ Reading.exponent w ≤ 127 ∨ -128 ≤ Reading.exponent w ∧ Reading.exponent w ≤ -65 := by
  have hk := reading_comb_lt w
  have he := reading_econt_lt w
  rw [Reading.exponent, reading_stored_of_normal h]
  split <;> omega

/-- In infinity and NaN words they are (R69). -/
theorem reading_exponent_of_special (h : 30 ≤ Reading.comb w) :
    -64 ≤ Reading.exponent w ∧ Reading.exponent w ≤ -1 := by
  have hk := reading_comb_lt w
  have he := reading_econt_lt w
  rw [Reading.exponent, reading_stored_of_large (by omega)]
  split <;> omega

theorem reading_coefficient_bounds (w : Word) :
    -(Reading.mag w : Int) ≤ Reading.coefficient w ∧ Reading.coefficient w ≤ (Reading.mag w : Int) := by
  rw [Reading.coefficient]
  split <;> omega

end Forms

section Packed
variable (s : BitVec 1) {m : Magnitude} {se : Exponent}

theorem reading_comb_packWord_of_large (se : Exponent) (h : 8388608 ≤ m.toNat) :
    Reading.comb (packWord s m se) = 24 + se.toNat / 64 * 2 + m.toNat / 1048576 % 2 := by
  rw [← combField_toNat_eq_reading, combField_packWord, packComb_toNat, if_pos (by omega)]

/-- Where the form can be read back, magnitude and stored exponent can (R70). -/
theorem reading_packWord_kept (hm : m.toNat ≤ 10485759) (h : 8388608 ≤ m.toNat ∨ se.toNat / 64 ≠ 3) :
    Reading.mag (packWord s m se) = m.toNat ∧ Reading.stored (packWord s m se) = se.toNat := by
  by_cases hlarge : 8388608 ≤ m.toNat
  · have hcomb := reading_comb_packWord_of_large s se hlarge
    rw [reading_mag_of_large (by omega), reading_stored_of_large (by omega), hcomb, reading_econt_packWord,
      reading_ccont_packWord]
    omega
  · have hcomb := reading_comb_packWord_of_normal s se (by omega : m.toNat < 8388608)
    rw [reading_mag_of_normal (by omega), reading_stored_of_normal (by omega), hcomb, reading_econt_packWord,
      reading_ccont_packWord]
    omega

/-- A normal-form word whose stored exponent starts with `11` is read in the large form: its magnitude bits 22-21 are
read as exponent bits (R70). -/
theorem reading_packWord_colliding (hm : m.toNat < 8388608) (h : se.toNat / 64 = 3) :
    Reading.comb (packWord s m se) / 8 = 3 ∧ Reading.mag (packWord s m se) = 8388608 + m.toNat % 2097152 ∧
      Reading.stored (packWord s m se) = m.toNat / 2097152 * 64 + se.toNat % 64 := by
  have hcomb := reading_comb_packWord_of_normal s se hm
  refine ⟨by omega, ?_, ?_⟩
  · rw [reading_mag_of_large (by omega), hcomb, reading_ccont_packWord]
    omega
  · rw [reading_stored_of_large (by omega), hcomb, reading_econt_packWord]
    omega

end Packed

end Sys2Proof.Machine

open Sys2Proof Sys2Proof.Machine

/-- Settles O22: the decoder's fields are the word's slices. -/
theorem decodeExtractsFieldsAndForm : Obligations.DecodeExtractsFieldsAndForm := by
  intro s w
  exact ⟨decoderUnit 32 w, exec_decode w s, signField_toNat_eq_reading w, combField_toNat_eq_reading w,
    econtField_toNat_eq_reading w, ccontField_toNat_eq_reading w, isLargeComb_combField_iff w⟩

/-- Settles O23: the decoder's magnitude and exponent are `Reading`'s, form by form. -/
theorem decodeRebuildsMagnitudeAndExponent : Obligations.DecodeRebuildsMagnitudeAndExponent := by
  intro s w
  refine ⟨decoderUnit 32 w, exec_decode w s, ?_, ?_, decoderUnit_ok 32 w⟩
  all_goals
    intro hform
    rw [decoderUnit_mag_toNat, decoderUnit_exp_toNat]
  · exact ⟨reading_mag_of_normal hform, reading_stored_of_normal hform⟩
  · exact ⟨reading_mag_of_large hform, reading_stored_of_large hform⟩

/-- Settles O24: the signed coefficient is exact at width 32, and folding a sign over magnitude 0 gives 0. -/
theorem decodeFoldsSignAndReadsExponent : Obligations.DecodeFoldsSignAndReadsExponent := by
  intro s w
  have hcoef := decoderUnit_coef_eq_coefficient 32 w (by decide)
  refine ⟨decoderUnit 32 w, exec_decode w s, decoderUnit_exp_toInt 32 w, hcoef, fun hsign hmag => ⟨?_, ?_⟩⟩
  · rw [← BitVec.toInt_inj, hcoef, Reading.coefficient, if_pos hsign, hmag]
    rfl
  · exact (signField_eq_one_iff w).2 hsign

/-- Settles O25: each form bounds magnitude and exponent, and packing a large magnitude reaches every exponent. -/
theorem decodeOutputRanges : Obligations.DecodeOutputRanges := by
  refine ⟨fun s w => ⟨_, decoderUnit 32 w, exec_decode w s, rfl, ?_⟩, fun s e => ?_⟩
  · have hcomb : ∀ k : BitVec 5, (decoderUnit 32 w).comb = k ↔ Reading.comb w = k.toNat := fun k => by
      rw [decoderUnit_comb, ← BitVec.toNat_inj, combField_toNat_eq_reading]
    have hlarge : (decoderUnit 32 w).large = true ↔ Reading.comb w / 8 = 3 := isLargeComb_combField_iff w
    rw [← Bool.not_eq_true, hlarge, hcomb, hcomb, decoderUnit_mag_toNat, decoderUnit_exp_toInt,
      decoderUnit_coef_eq_coefficient 32 w (by decide)]
    have hc := reading_ccont_lt w
    refine ⟨fun h => ⟨reading_mag_le_of_normal h, reading_exponent_of_normal h⟩, reading_mag_bounds_of_large,
      fun h => ?_, fun h => ?_, ?_⟩
    · have hk : Reading.comb w = 30 := h
      have hexp := reading_exponent_of_special (by omega : 30 ≤ Reading.comb w)
      rw [reading_mag_of_large (by omega)]
      omega
    · have hk : Reading.comb w = 31 := h
      have hexp := reading_exponent_of_special (by omega : 30 ≤ Reading.comb w)
      rw [reading_mag_of_large (by omega)]
      omega
    · have hmag := reading_mag_le w
      have hcoef := reading_coefficient_bounds w
      omega
  · have hkept := reading_packWord_kept 0#1 (m := 8388608#24) (se := e) (by decide) (.inl (by decide))
    have hcomb := reading_comb_packWord_of_large 0#1 e (m := 8388608#24) (by decide)
    have he := e.isLt
    refine ⟨packWord 0#1 8388608#24 e, _, _, exec_decode _ s, rfl, ?_, ?_⟩
    · rw [decoderUnit_large, isLargeComb_combField_iff, hcomb]
      simp only [BitVec.toNat_ofNat]
      omega
    · rw [← BitVec.toNat_inj, decoderUnit_exp_toNat, hkept.2]

/-- Settles O26: only the signed coefficient is made at the width. -/
theorem signedCoefficientExactAtEveryWidth : Obligations.SignedCoefficientExactAtEveryWidth :=
  fun n w hn => ⟨decoderUnit_coef_eq_coefficient n w hn, rfl, rfl, rfl, rfl, rfl, rfl, rfl, rfl⟩
end

section
/-! PROOFS, family other: the classifier. Each predicate as arithmetic on `Reading`'s numbers (R72 to R75), under both
values of CLASSIFY_ON_SIGNED (R78). -/

namespace Sys2Proof.Machine

/-- A predicate command drives the classifier with its word and reads one of the four outputs (R41, R42). -/
theorem exec_predicate {f : Word → Instr} (hf : f ∈ [Instr.zero, Instr.valid, Instr.isinf, Instr.isnan]) :
    ∃ read : ClsOut → Result, ∀ w s, exec (f w) s = .next { s with
      clsWord := some w
      clsOut := some (classifierUnit 32 false w)
      result := some (read (classifierUnit 32 false w)) } := by
  simp only [List.mem_cons, List.not_mem_nil, or_false] at hf
  rcases hf with rfl | rfl | rfl | rfl
  · exact ⟨fun o => .zero o.isZero, exec_zero⟩
  · exact ⟨fun o => .valid o.isValid, exec_valid⟩
  · exact ⟨fun o => .isInf o.isInf, exec_isinf⟩
  · exact ⟨fun o => .isNan o.isNan, exec_isnan⟩

theorem exists_of_mem_predicates {i : Instr} {w : Word} (hi : i ∈ Reading.predicates w) :
    ∃ f ∈ [Instr.zero, Instr.valid, Instr.isinf, Instr.isnan], i = f w := by
  simpa [Reading.predicates] using hi

section Flags
variable (d : Nat) (w : Word)

theorem isZero_unsigned_iff :
    (classifierUnit d false w).isZero = true ↔ Reading.mag w = 0 ∨ 9999999 < Reading.mag w := by
  rw [classifierUnit_isZero_iff, classifiedValue_unsigned, decoderUnit_mag_toNat]
  omega

theorem isValid_unsigned_iff :
    (classifierUnit d false w).isValid = true ↔ Reading.ExponentValid w ∧ Reading.mag w ≤ 9999999 := by
  rw [classifierUnit_isValid_iff, classifiedValue_unsigned, decoderUnit_mag_toNat, decoderUnit_exp_toInt]
  omega

theorem isZero_signed_iff (hd : 25 ≤ d) :
    (classifierUnit d true w).isZero = true ↔ Reading.coefficient w = 0 ∨ 9999999 < Reading.coefficient w := by
  rw [classifierUnit_isZero_iff, classifiedValue_signed, decoderUnit_coef_eq_coefficient d w hd]

theorem isValid_signed_iff (hd : 25 ≤ d) :
    (classifierUnit d true w).isValid = true ↔
      Reading.ExponentValid w ∧ 0 ≤ Reading.coefficient w ∧ Reading.coefficient w ≤ 9999999 := by
  rw [classifierUnit_isValid_iff, classifiedValue_signed, decoderUnit_coef_eq_coefficient d w hd,
    decoderUnit_exp_toInt]

theorem isInf_iff (onSigned : Bool) : (classifierUnit d onSigned w).isInf = true ↔ Reading.comb w = 30 :=
  classifierUnit_isInf_iff d onSigned w

theorem isNan_iff (onSigned : Bool) : (classifierUnit d onSigned w).isNan = true ↔ Reading.comb w = 31 :=
  classifierUnit_isNan_iff d onSigned w

theorem not_isInf_and_isNan (onSigned : Bool) :
    ¬ ((classifierUnit d onSigned w).isInf = true ∧ (classifierUnit d onSigned w).isNan = true) := by
  rw [isInf_iff, isNan_iff]
  omega

/-- The two readings can differ only where the classified value does (R78). -/
theorem classifierUnit_congr_onSigned {p q : Bool}
    (h : classifiedValue p (decoderUnit d w) = classifiedValue q (decoderUnit d w)) :
    classifierUnit d p w = classifierUnit d q w := by
  unfold classifierUnit
  simp only [h]

theorem clsOut_eq_of_special (h : Reading.comb w = 30) : classifierUnit d false w = ⟨false, true, true, false⟩ := by
  have hc := reading_ccont_lt w
  have hexp := reading_exponent_of_special (by omega : 30 ≤ Reading.comb w)
  have hmag := reading_mag_of_large (by omega : Reading.comb w / 8 = 3)
  have hz : (classifierUnit d false w).isZero = false := by
    rw [← Bool.not_eq_true, isZero_unsigned_iff]
    omega
  have hv : (classifierUnit d false w).isValid = true := (isValid_unsigned_iff d w).2 (by omega)
  have hi : (classifierUnit d false w).isInf = true := (isInf_iff d w false).2 h
  have hn : (classifierUnit d false w).isNan = false := by
    rw [← Bool.not_eq_true, isNan_iff]
    omega
  exact (ClsOut.mk.injEq ..).mpr ⟨hz, hv, hi, hn⟩

end Flags

section SignBit
variable (d : Nat) (w : Word)

theorem combField_flipSign : combField (w ^^^ 0x80000000#32) = combField w := by
  rw [← BitVec.toNat_inj, combField_toNat, combField_toNat, flipSign_toNat]
  split <;> omega

theorem econtField_flipSign : econtField (w ^^^ 0x80000000#32) = econtField w := by
  rw [← BitVec.toNat_inj, econtField_toNat, econtField_toNat, flipSign_toNat]
  split <;> omega

theorem ccontField_flipSign : ccontField (w ^^^ 0x80000000#32) = ccontField w := by
  rw [← BitVec.toNat_inj, ccontField_toNat, ccontField_toNat, flipSign_toNat]
  split <;> omega

/-- The unsigned reading is a function of the three fields below the sign bit (R77). -/
theorem classifierUnit_flipSign : classifierUnit d false (w ^^^ 0x80000000#32) = classifierUnit d false w := by
  simp [classifierUnit, combField_flipSign, econtField_flipSign, ccontField_flipSign]

end SignBit

end Sys2Proof.Machine

open Sys2Proof Sys2Proof.Machine

/-- Settles O29, by the combination field's number. -/
theorem specialPredicatesReadCombination : Obligations.SpecialPredicatesReadCombination :=
  fun s w => ⟨classifierUnit 32 false w, exec_isinf w s, isInf_iff 32 w false, exec_isnan w s, isNan_iff 32 w false⟩

/-- Settles O30, by the decoded magnitude. -/
theorem zeroReportsMagnitude : Obligations.ZeroReportsMagnitude :=
  fun s w => ⟨classifierUnit 32 false w, exec_zero w s, isZero_unsigned_iff 32 w⟩

/-- Settles O31, by the decoded exponent and magnitude. -/
theorem validReportsLimits : Obligations.ValidReportsLimits :=
  fun s w => ⟨classifierUnit 32 false w, exec_valid w s, isValid_unsigned_iff 32 w⟩

/-- Settles O32: the flags as arithmetic, and what each form says of magnitude and exponent. -/
theorem classifierTableByForm : Obligations.ClassifierTableByForm := by
  intro s w i hi
  obtain ⟨f, hf, rfl⟩ := exists_of_mem_predicates hi
  obtain ⟨read, hexec⟩ := exec_predicate hf
  refine ⟨_, classifierUnit 32 false w, hexec w s, rfl, ?_, ?_, clsOut_eq_of_special 32 w, ?_,
    not_isInf_and_isNan 32 w false, ?_⟩
  · intro hnormal
    have hmag := reading_mag_le_of_normal hnormal
    rw [← Bool.not_eq_true, ← Bool.not_eq_true, isInf_iff, isNan_iff, isZero_unsigned_iff, isValid_unsigned_iff]
    omega
  · intro hlo hhi
    have hc := reading_ccont_lt w
    have hmag := reading_mag_of_large (by omega : Reading.comb w / 8 = 3)
    rw [← Bool.not_eq_true, ← Bool.not_eq_true, isInf_iff, isNan_iff, isZero_unsigned_iff, isValid_unsigned_iff]
    omega
  · intro hnan
    have hmag := reading_mag_of_large (by omega : Reading.comb w / 8 = 3)
    have hexp := reading_exponent_of_special (by omega : 30 ≤ Reading.comb w)
    rw [← Bool.not_eq_true, isInf_iff, isNan_iff, isZero_unsigned_iff, isValid_unsigned_iff]
    omega
  · rw [isZero_unsigned_iff, isValid_unsigned_iff]
    have hlarge : Reading.comb w / 8 = 3 → 8388608 ≤ Reading.mag w := fun h => (reading_mag_bounds_of_large h).1
    omega

/-- Settles O33: the unsigned reading, and ISINF and ISNAN under both, see only fields below the sign bit. -/
theorem classifierIgnoresSign : Obligations.ClassifierIgnoresSign := by
  constructor
  · intro s w f hf
    obtain ⟨read, hexec⟩ := exec_predicate hf
    exact ⟨_, _, hexec w s, hexec _ s, congrArg some (classifierUnit_flipSign 32 w),
      congrArg (some <| read ·) (classifierUnit_flipSign 32 w)⟩
  · intro w onSigned
    exact ⟨congrArg infFlag (combField_flipSign w), congrArg nanFlag (combField_flipSign w)⟩

/-- Settles O34: with sign 1 the signed reading classifies minus the magnitude. -/
theorem signedReadingOfPredicates : Obligations.SignedReadingOfPredicates := by
  intro s w
  have hneg : Reading.sign w = 1 → Reading.coefficient w = -(Reading.mag w : Int) := fun h => if_pos h
  refine ⟨⟨_, exec_zero w s, rfl⟩, fun hsign => ?_, fun hsign hmag => ?_, fun hsign hmag => ?_,
    fun hsign hmag => ?_, fun hsign hmag => ?_⟩
  · have hpos : Reading.coefficient w = (Reading.mag w : Int) := if_neg (by omega)
    apply classifierUnit_congr_onSigned
    rw [classifiedValue_signed, classifiedValue_unsigned, decoderUnit_mag_toNat,
      decoderUnit_coef_eq_coefficient 32 w (by decide), hpos]
  · rw [← Bool.not_eq_true, isZero_signed_iff 32 w (by decide), hneg hsign]
    omega
  · rw [Bool.eq_iff_iff, isZero_signed_iff 32 w (by decide), isZero_unsigned_iff, hneg hsign]
    omega
  · rw [← Bool.not_eq_true, isValid_signed_iff 32 w (by decide), hneg hsign]
    omega
  · rw [Bool.eq_iff_iff, isValid_signed_iff 32 w (by decide), isValid_unsigned_iff, hneg hsign]
    omega
end

section
/-! PROOFS, family other: the form table of R37. All its masks lie in the combination field, so which rows cover a word
is a finite question. -/

namespace Sys2Proof.Machine

/-- The word with this combination field and every other bit 0. -/
def combWord (comb : BitVec 5) : Word := 0#1 ++ comb ++ 0#26

theorem combWord_toNat (comb : BitVec 5) : (combWord comb).toNat = comb.toNat * 67108864 := by
  rw [combWord, append_toNat, append_toNat]
  simp

theorem mask_in_comb : ∀ r ∈ formTable, ∃ m < 32, r.mask.toNat = m * 67108864 := by
  decide

/-- A row covers a word by the word's combination field alone. -/
theorem covers_combWord {r : FormRow} (hr : r ∈ formTable) (w : Word) :
    r.covers (combWord (combField w)) = r.covers w := by
  obtain ⟨m, hm, hmask⟩ := mask_in_comb r hr
  have hkept := Nat.and_mod_two_pow (a := w.toNat / 67108864) (b := m) (n := 5)
  have hle : w.toNat / 67108864 &&& m ≤ m := Nat.and_le_right
  have heq : combWord (combField w) &&& r.mask = w &&& r.mask := by
    rw [← BitVec.toNat_inj, BitVec.toNat_and, BitVec.toNat_and, hmask, maskHigh, maskHigh, combWord_toNat,
      combField_toNat, Nat.mul_div_cancel _ (by decide)]
    rw [Nat.mod_eq_of_lt (by omega : m < 2 ^ 5), Nat.mod_eq_of_lt (by omega)] at hkept
    rw [hkept]
  rw [FormRow.covers, FormRow.covers, heq]

theorem exactly_one_row_covers : ∀ comb : BitVec 5, ∃ r ∈ formTable, r.covers (combWord comb) = true ∧
    (∀ r' ∈ formTable, r'.covers (combWord comb) = true → r' = r) ∧
    (r.form = .normal ↔ comb.toNat / 8 ≠ 3) ∧
    (r.form = .largeFinite ↔ 24 ≤ comb.toNat ∧ comb.toNat ≤ 29) ∧
    (r.form = .infinity ↔ comb.toNat = 30) ∧ (r.form = .nan ↔ comb.toNat = 31) := by
  decide

end Sys2Proof.Machine

open Sys2Proof Sys2Proof.Machine

/-- Settles O35: the rows are decided on the 32 combination fields. -/
theorem wordMatchesExactlyOneFormRow : Obligations.WordMatchesExactlyOneFormRow := by
  intro w
  obtain ⟨r, hr, hcovers, hunique, hform⟩ := exactly_one_row_covers (combField w)
  rw [combField_toNat_eq_reading] at hform
  refine ⟨r, hr, (covers_combWord hr w).symm.trans hcovers, fun r' hr' hcovers' => ?_, hform⟩
  exact hunique r' hr' ((covers_combWord hr' w).trans hcovers')
end

section
/-! PROOFS, family other: ENCODE. The word of an in-range input as one number (R49 to R54), what the decoder and the
classifier say of that word (R56 to R59, R70), and the encoder at every width of its port. -/

namespace Sys2Proof.Machine

/-- The word of an in-range coefficient and exponent (R54). -/
def encodedWord (c : Int) (b : Exponent) : Word := packWord (signOf c) (magOf c) b

theorem exec_encode_inRange {a : BitVec 32} {b : Exponent} (h : Reading.InRange a.toInt b.toInt) (s : State) :
    exec (.encode a b) s = .next { s with
      encCoef := some a
      encExp := some b
      encOut := some ⟨encodedWord a.toInt b, true⟩
      result := some (.encoded ⟨encodedWord a.toInt b, true⟩) } := by
  rw [exec_encode, encoderUnit_succeeds a b h, encodedWord]

/-- The encoder sees its coefficient as an integer only, whatever the width it comes in (R41, R46). -/
theorem encoderUnit_congr {n k : Nat} {x : BitVec n} {y : BitVec k} (h : x.toInt = y.toInt) (b : Exponent) :
    encoderUnit x b = encoderUnit y b := by
  unfold encoderUnit
  rw [h]

/-- The exponents whose stored pattern starts with `11` (R57, R59, R70). -/
theorem exponent_colliding_iff (b : Exponent) : (-64 ≤ b.toInt ∧ b.toInt ≤ -1) ↔ b.toNat / 64 = 3 := by
  have hb := b.isLt
  rw [exponent_toInt]
  split <;> omega

section EncodedWord
variable {c : Int} (hc : c.natAbs ≤ 9999999) (b : Exponent)
include hc

theorem encodedWord_toNat : (encodedWord c b).toNat =
    (if c < 0 then 2147483648 else 0) +
      (if 8388608 ≤ c.natAbs then 1610612736 + b.toNat / 64 * 134217728 + c.natAbs / 1048576 % 2 * 67108864
        else b.toNat / 64 * 536870912 + c.natAbs / 1048576 % 8 * 67108864) +
      b.toNat % 64 * 1048576 + c.natAbs % 1048576 := by
  rw [encodedWord, packWord_toNat, packComb_toNat, signOf_toNat, magOf_toNat hc]
  by_cases hlarge : 8388608 ≤ c.natAbs
  · rw [if_pos (by omega : c.natAbs / 8388608 = 1), if_pos hlarge]
    split <;> omega
  · rw [if_neg (by omega : ¬ c.natAbs / 8388608 = 1), if_neg hlarge]
    split <;> omega

theorem encodedWord_toNat_eq_encodedNat : (encodedWord c b).toNat = Reading.encodedNat c b.toInt := by
  rw [encodedWord_toNat hc, Reading.encodedNat, storedOf_toInt]

theorem reading_comb_encodedWord : Reading.comb (encodedWord c b) =
    if 8388608 ≤ c.natAbs then 24 + b.toNat / 64 * 2 + c.natAbs / 1048576 % 2
    else b.toNat / 64 * 8 + c.natAbs / 1048576 := by
  have hm := magOf_toNat hc
  split
  · rw [encodedWord, reading_comb_packWord_of_large _ _ (by omega), hm]
  · rw [encodedWord, reading_comb_packWord_of_normal _ _ (by omega), hm]

theorem reading_encodedWord_kept (h : 8388608 ≤ c.natAbs ∨ ¬ (-64 ≤ b.toInt ∧ b.toInt ≤ -1)) :
    Reading.mag (encodedWord c b) = c.natAbs ∧ Reading.exponent (encodedWord c b) = b.toInt := by
  have hm := magOf_toNat hc
  rw [exponent_colliding_iff] at h
  obtain ⟨hmag, hstored⟩ := reading_packWord_kept (signOf c) (m := magOf c) (se := b) (by omega) (by omega)
  rw [encodedWord, hmag, hm, Reading.exponent, hstored, exponent_toInt]
  exact ⟨rfl, rfl⟩

omit hc in
theorem reading_encodedWord_colliding {b : Exponent} (hc : c.natAbs < 8388608)
    (h : -64 ≤ b.toInt ∧ b.toInt ≤ -1) :
    Reading.comb (encodedWord c b) / 8 = 3 ∧ Reading.mag (encodedWord c b) = 8388608 + c.natAbs % 2097152 ∧
      Reading.stored (encodedWord c b) = c.natAbs / 2097152 * 64 + b.toNat % 64 := by
  have hm : (magOf c).toNat = c.natAbs := magOf_toNat (by omega)
  rw [exponent_colliding_iff] at h
  rw [encodedWord, ← hm]
  exact reading_packWord_colliding _ (by omega) h

omit hc in
theorem reading_sign_encodedWord : Reading.sign (encodedWord c b) = 1 ↔ c < 0 := reading_sign_packWord_signOf c _ _

omit hc in
theorem reading_coefficient_encodedWord : Reading.coefficient (encodedWord c b) =
    if c < 0 then -(Reading.mag (encodedWord c b) : Int) else (Reading.mag (encodedWord c b) : Int) := by
  simp only [Reading.coefficient, reading_sign_encodedWord]

theorem reading_mag_encodedWord_pos (hpos : c ≠ 0) : Reading.mag (encodedWord c b) ≠ 0 := by
  by_cases h : c.natAbs < 8388608 ∧ (-64 ≤ b.toInt ∧ b.toInt ≤ -1)
  · rw [(reading_encodedWord_colliding h.1 h.2).2.1]
    omega
  · rw [(reading_encodedWord_kept hc b (by omega)).1]
    omega

end EncodedWord

/-- Negating a coefficient other than 0 sets or clears bit 31 of the word and no other (R56). -/
theorem encodedWord_neg {c : Int} (hc : c.natAbs ≤ 9999999) (hne : c ≠ 0) (b : Exponent) :
    encodedWord (-c) b = encodedWord c b ^^^ 0x80000000#32 := by
  have hb := b.isLt
  rw [← BitVec.toNat_inj, flipSign_toNat, encodedWord_toNat (by omega), encodedWord_toNat hc, Int.natAbs_neg]
  rcases lt_or_gt_of_ne hne with hneg | hpos
  · rw [if_neg (by omega : ¬ -c < 0), if_pos hneg]
    split_ifs <;> omega
  · rw [if_pos (by omega : -c < 0), if_neg (by omega : ¬ c < 0)]
    split_ifs <;> omega

theorem toInt_neg_of_small {a : BitVec 32} (h : a.toInt.natAbs ≤ 9999999) : (-a).toInt = -a.toInt := by
  rw [BitVec.toInt_neg]
  apply Int.bmod_eq_of_le <;> norm_num <;> omega

end Sys2Proof.Machine

open Sys2Proof Sys2Proof.Machine

/-- Settles O13: the encoder answers the sentinel on every out-of-range input. -/
theorem encodeOutOfRangeGivesFailWord : Obligations.EncodeOutOfRangeGivesFailWord := by
  intro s a b hout
  rw [exec_encode, encoderUnit_fails a b hout, Config.failWord]

/-- Settles O14, by the encoder's flag. -/
theorem encodeSucceedsExactlyInRange : Obligations.EncodeSucceedsExactlyInRange :=
  fun s a b => ⟨encoderUnit a b, exec_encode a b s, encoderUnit_ok_iff⟩

/-- Settles O15: the packed word as a number. -/
theorem encodeInRangeWord : Obligations.EncodeInRangeWord :=
  fun s a b hin => ⟨encodedWord a.toInt b, encodedWord_toNat_eq_encodedNat hin.1 b, exec_encode_inRange hin s⟩

/-- Settles O16: the negated coefficient is in range too, and its word differs in the sign bit. -/
theorem encodeSignSymmetry : Obligations.EncodeSignSymmetry := by
  intro s a b hin
  have hneg := toInt_neg_of_small hin.1
  have hin' : Reading.InRange (-a).toInt b.toInt := by
    rw [hneg, Reading.InRange, Int.natAbs_neg]
    exact hin
  refine ⟨_, _, _, _, exec_encode_inRange hin s, rfl, exec_encode_inRange hin' s, rfl, fun hne => ?_, fun hzero => ?_⟩
  · have hne' : a.toInt ≠ 0 := fun h => hne (BitVec.toInt_inj.1 h)
    rw [hneg, encodedWord_neg hin.1 hne']
  · rw [hzero]
    rfl

/-- Settles O17: which combination fields the encoder packs. -/
theorem encodeSpecialWordsExactly : Obligations.EncodeSpecialWordsExactly := by
  intro s a b hin
  have hb := b.isLt
  have hmag := hin.1
  have hcomb := reading_comb_encodedWord hin.1 b
  refine ⟨_, _, _, _, _, _, exec_encode_inRange hin s, rfl, exec_isinf _ _, rfl, ?_, exec_isnan _ _, rfl, ?_⟩
  · rw [classifierUnit_isInf_iff, ← Reading.comb, hcomb, exponent_colliding_iff]
    split <;> omega
  · rw [classifierUnit_isNan_iff, ← Reading.comb, hcomb, exponent_colliding_iff]
    split <;> omega

/-- Settles O18: the sign of a word is its coefficient's, and only the coefficient 0 can give magnitude 0. -/
theorem encoderGivesNoNegativeZero : Obligations.EncoderGivesNoNegativeZero := by
  constructor
  · intro s b hlo hhi
    have hin : Reading.InRange (0#32).toInt b.toInt := ⟨by decide, hlo, hhi⟩
    refine ⟨_, encodedWord 0 b, exec_encode_inRange hin s, rfl, ?_, ?_, ?_, ?_⟩
    · rw [Reading.sign, ← signField_toNat, encodedWord, signField_packWord]
      rfl
    · rw [encodedWord, reading_ccont_packWord]
      rfl
    · rw [← BitVec.toNat_inj, ← BitVec.toNat_inj, encodedWord_toNat (by decide), if_neg (by decide),
        if_neg (by decide : ¬ 8388608 ≤ (0 : Int).natAbs), BitVec.toNat_ofNat, BitVec.toNat_ofNat]
      omega
    · by_cases h : -64 ≤ b.toInt ∧ b.toInt ≤ -1
      · obtain ⟨-, hmag, -⟩ := reading_encodedWord_colliding (c := 0) (by decide) h
        omega
      · obtain ⟨hmag, -⟩ := reading_encodedWord_kept (c := 0) (by decide) b (.inr h)
        omega
  · intro s a b hin
    refine ⟨_, _, exec_encode_inRange hin s, rfl, fun ⟨hsign, hmag⟩ => ?_⟩
    have hneg := (reading_sign_encodedWord b).1 hsign
    exact reading_mag_encodedWord_pos hin.1 b (by omega) hmag

/-- Settles O19: the two inputs have the same word as numbers. -/
theorem encodeNotInjective : Obligations.EncodeNotInjective := by
  intro s a a' b b' hin hsmall hlo hhi ha' hb' hin'
  have hstored := (exponent_colliding_iff b).1 ⟨hlo, hhi⟩
  have habs : a'.toInt.natAbs = 8388608 + a.toInt.natAbs % 2097152 := by
    split at ha' <;> omega
  have hsign : a'.toInt < 0 ↔ a.toInt < 0 := by
    split at ha' <;> omega
  have hword : encodedWord a'.toInt b' = encodedWord a.toInt b := by
    rw [← BitVec.toNat_inj, encodedWord_toNat hin'.1, encodedWord_toNat hin.1, hb', habs,
      if_pos (by omega : 8388608 ≤ 8388608 + a.toInt.natAbs % 2097152),
      if_neg (by omega : ¬ 8388608 ≤ a.toInt.natAbs)]
    simp only [hsign]
    omega
  refine ⟨_, _, encodedWord a.toInt b, exec_encode_inRange hin s, exec_encode_inRange hin' s, rfl, ?_⟩
  rw [hword]

/-- Settles O20: a kept magnitude is in range, and a colliding one is 8388608 and its low 21 bits. -/
theorem encodedNonCanonicalExactly : Obligations.EncodedNonCanonicalExactly := by
  intro s a b hin
  refine ⟨_, _, _, decoderUnit 32 _, exec_encode_inRange hin s, rfl, exec_decode _ _, rfl, ?_⟩
  rw [decoderUnit_mag_toNat]
  by_cases h : a.toInt.natAbs < 8388608 ∧ (-64 ≤ b.toInt ∧ b.toInt ≤ -1)
  · obtain ⟨-, hmag, -⟩ := reading_encodedWord_colliding h.1 h.2
    omega
  · obtain ⟨hmag, -⟩ := reading_encodedWord_kept hin.1 b (by omega)
    omega

/-- Settles O21: the encoder's rules speak of integers, and sign extension keeps the integer. -/
theorem encoderRulesHoldAtEveryWidth : Obligations.EncoderRulesHoldAtEveryWidth := by
  intro n _
  refine ⟨fun x b => ⟨fun hin => ?_, fun hout => ?_⟩, fun hn a b => ?_⟩
  · exact ⟨encodedWord x.toInt b, encodedWord_toNat_eq_encodedNat hin.1 b, encoderUnit_succeeds x b hin⟩
  · exact encoderUnit_fails x b (by omega)
  · exact encoderUnit_congr (BitVec.toInt_signExtend_of_le hn) b

/-- Settles O27: a kept word gives both back, and a colliding one has a magnitude of at least 2^23. -/
theorem roundTripExactlyOnDomain : Obligations.RoundTripExactlyOnDomain := by
  intro s a b hin
  refine ⟨_, _, _, decoderUnit 32 _, exec_encode_inRange hin s, rfl, exec_decode _ _, rfl, ?_⟩
  rw [decoderUnit_coef_eq_coefficient 32 _ (by decide), decoderUnit_exp_toInt, reading_coefficient_encodedWord]
  by_cases h : a.toInt.natAbs < 8388608 ∧ (-64 ≤ b.toInt ∧ b.toInt ≤ -1)
  · obtain ⟨-, hmag, -⟩ := reading_encodedWord_colliding h.1 h.2
    rw [hmag]
    refine iff_of_false (fun ⟨hcoef, _⟩ => ?_) (by omega)
    split at hcoef <;> omega
  · obtain ⟨hmag, hexp⟩ := reading_encodedWord_kept hin.1 b (by omega)
    rw [hmag]
    refine iff_of_true ⟨?_, hexp, decoderUnit_ok 32 _⟩ (by omega)
    split <;> omega

/-- Settles O28: the colliding word is read in the large form. -/
theorem collidingEncodeDecodesIntoLargeForm : Obligations.CollidingEncodeDecodesIntoLargeForm := by
  intro s a b hsmall hlo hhi
  have hin : Reading.InRange a.toInt b.toInt := by omega
  obtain ⟨hlarge, hmag, hstored⟩ := reading_encodedWord_colliding hsmall ⟨hlo, hhi⟩
  refine ⟨_, _, encodedWord a.toInt b, decoderUnit 32 _, exec_encode_inRange hin s, rfl, exec_decode _ _, rfl,
    (isLargeComb_combField_iff _).2 hlarge, ?_, ?_, ?_, ?_⟩
  · rw [decoderUnit_mag_toNat, hmag]
  · rw [decoderUnit_exp_toNat, hstored]
  · rw [decoderUnit_sign, signField_eq_one_iff, reading_sign_encodedWord]
  · rw [decoderUnit_coef_eq_coefficient 32 _ (by decide), decoderUnit_mag_toNat, reading_coefficient_encodedWord]
end

section
/-! PROOFS, family other: the assembler. An operand is accepted exactly if it fits, and is written in its own field
(R44). -/

namespace Sys2Proof

section Resolve
variable (names : Names) {v : Nat} {n : String}

theorem resolveWord_value_of_fits (h : v < 2 ^ 32) : resolveWord names (.value v) = some (BitVec.ofNat 32 v) := if_pos h

theorem resolveWord_value_of_wide (h : 2 ^ 32 ≤ v) : resolveWord names (.value v) = none := if_neg (Nat.not_lt.2 h)

variable {names}

/-- A bound name is its value. -/
theorem resolveWord_name_of_bound (h : names.value n = some v) :
    resolveWord names (.name n) = resolveWord names (.value v) := by
  simp [resolveWord, h]

theorem resolveWord_name_of_unbound (h : names.value n = none) : resolveWord names (.name n) = none := by
  simp [resolveWord, h]

end Resolve

/-- Outside ENCODE the assembler resolves the word and writes it after the operation's `op` and a `b` of 0. -/
theorem assemble_word {p : (WordOperand → Asm) × Nat}
    (hp : p ∈ [(Asm.decode, 1), (Asm.zero, 2), (Asm.valid, 3), (Asm.isinf, 4), (Asm.isnan, 5)]) :
    p.2 < 8 ∧ ∀ names o,
      assemble names (p.1 o) = (resolveWord names o).map (commandWord (BitVec.ofNat 3 p.2) 0#8) := by
  simp only [List.mem_cons, List.not_mem_nil, or_false] at hp
  rcases hp with rfl | rfl | rfl | rfl | rfl <;> exact ⟨by decide, fun _ _ => Option.map_map ..⟩

end Sys2Proof

open Sys2Proof Sys2Proof.Machine

/-- Settles O41: what fits is written in its field, and a name is its value. -/
theorem assemblerFitsOperandsToFields : Obligations.AssemblerFitsOperandsToFields := by
  refine ⟨fun names c e => ⟨fun hfits => ?_, fun hwide => ?_⟩, fun names p hp v n => ?_⟩
  · refine ⟨commandWord 0#3 (BitVec.ofInt 8 e) (BitVec.ofInt 32 c), ?_, ?_⟩
    · rw [assemble, assembleInstr, if_pos hfits]
      rfl
    · rw [commandWord_toNat, BitVec.toNat_ofInt, BitVec.toNat_ofInt]
      simp
  · rw [assemble, assembleInstr, if_neg hwide]
    rfl
  · obtain ⟨hop, hasm⟩ := assemble_word hp
    simp only [hasm]
    refine ⟨fun hfits => ?_, fun hwide => ?_, fun hbound => ?_, fun hunbound => ?_⟩
    · rw [resolveWord_value_of_fits names hfits]
      refine ⟨_, rfl, ?_⟩
      rw [commandWord_toNat, BitVec.toNat_ofNat, BitVec.toNat_ofNat, BitVec.toNat_ofNat]
      omega
    · rw [resolveWord_value_of_wide names hwide]
      rfl
    · rw [resolveWord_name_of_bound hbound]
    · rw [resolveWord_name_of_unbound hunbound]
      rfl
end
